-- ==== Sys2Proof/Word.lean ====
section
/-! DEFINITION. The words of the machine: the byte, the 12-bit address, the 16-bit
instruction word, and the small index types of the register file, the key latch and the
display grid (spec/00_scope.md R5, R7; spec/10_state.md R10). -/

namespace Sys2Proof

/-- One byte, the only addressable unit of memory and the width of a general register
(10_state.md R11, R19). -/
abbrev Byte := BitVec 8

/-- A 12-bit byte address: the width of `pc`, of `I` and of a stack entry (10_state.md R14,
R15, R17).  Its arithmetic wraps modulo 4096 (20_memory.md R44). -/
abbrev Addr := BitVec 12

/-- A 16-bit instruction word (30_encoding.md R60). -/
abbrev Opcode := BitVec 16

/-- The number of a general register, 0 to 15 (10_state.md R11). -/
abbrev Reg := Fin 16

/-- A key code, 0x0 to 0xF (10_state.md R21). -/
abbrev KeyCode := Fin 16

/-- A display column, 0 to 63 (10_state.md R20). -/
abbrev Col := Fin 64

/-- A display row, 0 to 31 (10_state.md R20). -/
abbrev Row := Fin 32

end Sys2Proof
end

