-- ==== Sys2Proof/Config.lean ====
section
/-! DEFINITION. The constants of this hardware (spec/00_scope.md R5), the built-in font
(spec/20_memory.md R47) and the one free value, the random byte of a step that no driver
has supplied (spec/10_state.md R30, spec/45_input_timers_random.md R186). -/

namespace Sys2Proof.Config

/-- `MEM_SIZE`: addresses 0 to 4095 (00_scope.md R5). -/
def memSize : Nat := 4096

/-- `FONT_BASE`: the first byte of the font (00_scope.md R5). -/
def fontBase : Addr := 0

/-- `GLYPH_H`: the number of rows, and of bytes, of one font digit (00_scope.md R5). -/
def glyphHeight : Nat := 5

/-- `PROG_START`: the program start address and the reset value of `pc` (00_scope.md R5). -/
def progStart : Addr := 0x200

/-- `PROG_MAX`: the largest program, `MEM_SIZE - PROG_START` (00_scope.md R5). -/
def progMax : Nat := 3584

/-- `STACK_DEPTH`: the entries of the call stack (00_scope.md R5). -/
def stackDepth : Nat := 16

/-- Font digits 0 to 3 (20_memory.md R47).  PRESUMED: log entry 4. -/
def font0to3 : List Byte :=
  [0xF0, 0x90, 0x90, 0x90, 0xF0,
   0x20, 0x60, 0x20, 0x20, 0x70,
   0xF0, 0x10, 0xF0, 0x80, 0xF0,
   0xF0, 0x10, 0xF0, 0x10, 0xF0]

/-- Font digits 4 to 7 (20_memory.md R47).  PRESUMED: log entry 4. -/
def font4to7 : List Byte :=
  [0x90, 0x90, 0xF0, 0x10, 0x10,
   0xF0, 0x80, 0xF0, 0x10, 0xF0,
   0xF0, 0x80, 0xF0, 0x90, 0xF0,
   0xF0, 0x10, 0x20, 0x40, 0x40]

/-- Font digits 8 to B (20_memory.md R47).  PRESUMED: log entry 4. -/
def font8toB : List Byte :=
  [0xF0, 0x90, 0xF0, 0x90, 0xF0,
   0xF0, 0x90, 0xF0, 0x10, 0xF0,
   0xF0, 0x90, 0xF0, 0x90, 0x90,
   0xE0, 0x90, 0xE0, 0x90, 0xE0]

/-- Font digits C to F (20_memory.md R47).  PRESUMED: log entry 4. -/
def fontCtoF : List Byte :=
  [0xF0, 0x80, 0x80, 0x80, 0xF0,
   0xE0, 0x90, 0x90, 0x90, 0xE0,
   0xF0, 0x80, 0xF0, 0x80, 0xF0,
   0xF0, 0x80, 0xF0, 0x80, 0x80]

/-- `FONT`: the 80 bytes that reset leaves in addresses 0 to 79 (20_memory.md R47). -/
def font : List Byte := font0to3 ++ font4to7 ++ font8toB ++ fontCtoF

/-- The random byte of the `k`th executed `RND` where no driver has supplied one: a FREE
VALUE, with no body, so that no proof can know it (45_input_timers_random.md R186, 93 U9).
Log entry 14. -/
opaque freeRnd : Nat → Byte

end Sys2Proof.Config
end

