-- ==== Sys2Proof/Machine/State.lean ====
section
/-! DEFINITION. The complete state of the block (spec/10_state.md R10), its value after reset
(spec/46_host_operations.md R201), the conditions an operation can report
(spec/60_exceptions.md R220), and the reasons a step can stop. -/

namespace Sys2Proof.Machine

/-- Memory as the listed cells: addresses strictly rising, no cell equal to what an unlisted
address reads as (`Memory.wf` and `Memory.unlisted`, Machine/Ops.lean). -/
abbrev Memory := List Host.Cell

/-- The display grid, `DISP[x][y]`: 64 columns of 32 pixels (10_state.md R20). -/
abbrev Display := Vector (Vector Bool 32) 64

/-- The result of an operation (40_dispatcher_step.md R85; 60_exceptions.md R220). -/
inductive Condition where
  /-- code 0: no condition, also a key-wait stall -/
  | ok
  /-- code 1, recoverable: the word matches no instruction; reported after the step has advanced (R223) -/
  | unknownOpcode (instr : Opcode) (pc0 : Addr)
  /-- code 2, fatal: `CALL` with a full stack; nothing changed (R221) -/
  | stackOverflow (instr : Opcode) (pc0 : Addr)
  /-- code 3, fatal: `RET` with an empty stack; nothing changed (R222) -/
  | stackUnderflow (instr : Opcode) (pc0 : Addr)
  /-- code 4: `loadProgram` of more than 3584 bytes; nothing written (R224) -/
  | capacityError
deriving DecidableEq, Repr

/-- The state of the block.  The first thirteen fields are the table of 10_state.md R10; the
last three are the model's own (log entries 14 and 15). -/
structure State where
  /-- `V[0]` .. `V[15]`, the general registers; `V[15]` is `VF` (R11 to R13) -/
  v : Vector Byte 16
  /-- `I`, the index register (R14) -/
  i : Addr
  /-- `pc`, the address of the instruction the next step fetches (R15) -/
  pc : Addr
  /-- `SP`, the number of stack entries in use, 0 to 16 (R16) -/
  sp : Fin 17
  /-- `STACK[0]` .. `STACK[15]`, the return addresses (R17) -/
  stack : Vector Addr 16
  /-- `DT`, the delay timer (R18) -/
  dt : Byte
  /-- `ST`, the sound timer (R18) -/
  st : Byte
  /-- `MEM` (R19) -/
  mem : Memory
  /-- `DISP` (R20) -/
  disp : Display
  /-- `KEY[0]` .. `KEY[15]`, pressed or released (R21) -/
  key : Vector Bool 16
  /-- `DRAW_PENDING` (R22) -/
  drawPending : Bool
  /-- `SOUND_PENDING` (R23) -/
  soundPending : Bool
  /-- `WAIT` (R24) -/
  wait : Bool
  /-- the model's own: what the most recent step that answered a state reported (log entry 15) -/
  report : Condition
  /-- the model's own: the input `rnd` of the coming step, where a driver has supplied it (log entry 14) -/
  rndIn : Option Byte
  /-- the model's own: how many `RND` have run, the argument of the free value (log entry 14) -/
  draws : Nat
deriving DecidableEq, Repr

/-- A blank display: all 2048 pixels 0. -/
def blankDisplay : Display := Vector.replicate 64 (Vector.replicate 32 false)

/-- The state right after `initialize()` (46_host_operations.md R201): the memory lists nothing,
so every address reads as reset leaves it (the font in 0 to 79, 0 elsewhere). -/
def State.reset : State where
  v := Vector.replicate 16 0
  i := 0
  pc := Config.progStart
  sp := 0
  stack := Vector.replicate 16 0
  dt := 0
  st := 0
  mem := []
  disp := blankDisplay
  key := Vector.replicate 16 false
  drawPending := false
  soundPending := false
  wait := false
  report := .ok
  rndIn := none
  draws := 0

/-- Why a step stops.  Both are the spec's fatal conditions: the step changes nothing and its
result is handed to the driver (60_exceptions.md R221, R222, R227). -/
inductive Fault where
  /-- Raised by `CALL` when `SP = 16` (R221).  Safe: the spec's own treatment is `fault`
  (93_implementation_defined.md U1). -/
  | stackOverflow (instr : Opcode) (pc0 : Addr)
  /-- Raised by `RET` when `SP = 0` (R222).  Safe: the spec's own treatment is `fault`
  (93_implementation_defined.md U2). -/
  | stackUnderflow (instr : Opcode) (pc0 : Addr)
deriving DecidableEq, Repr

/-- Why the model has no move.  No instruction ends in one of these: the last two belong to
the driver's operations (Machine/Driver.lean). -/
inductive Refusal where
  /-- Raised by an arm of exec whose instruction has no meaning yet; there is none.  Safe. -/
  | notModelled (mnemonic : String)
  /-- Raised by every driver operation but `initialize` on a block never initialised
  (46_host_operations.md R212).  Safe: the spec's own treatment is `refuse`. -/
  | uninitialised
  /-- Raised by `pressKey` and `releaseKey` with a code outside 0 to 15
  (46_host_operations.md R206).  Safe: the spec's own treatment is `refuse`. -/
  | keyCodeOutOfRange (code : Nat)
deriving DecidableEq, Repr

/-- What a meaning answers. -/
abbrev Result := Host.Outcome State Fault Refusal

end Sys2Proof.Machine
end

