-- ==== Sys2Proof/Machine/Ops.lean ====
section
/-! DEFINITION. The named operations every meaning is written over: memory, registers, the call
stack, the program counter, the display, the tick, the end of a step, and the conditions of a
step (spec/20_memory.md R40 to R46; spec/40_dispatcher_step.md R80 to R92; spec/60_exceptions.md R220 to R228). -/

namespace Sys2Proof.Machine

/-! ### Memory (20_memory.md) -/

/-- What an address that no cell lists reads as: the reset contents, the font in 0 to 79 and
0 from 80 upwards (10_state.md R19). -/
def Memory.unlisted (a : Nat) : Byte := Config.font.getD a 0

/-- The byte at a plain address. -/
def Memory.lookup : Memory → Nat → Byte
  | [], a => Memory.unlisted a
  | (k, b) :: rest, a => if k = a then b else Memory.lookup rest a

/-- A cell before the others, unless it says what the unlisted address reads as anyway. -/
def Memory.cons (a : Nat) (b : Byte) (m : Memory) : Memory :=
  if b = Memory.unlisted a then m else (a, b) :: m

/-- Stores a byte at a plain address and keeps the canonical form. -/
def Memory.insert : Memory → Nat → Byte → Memory
  | [], a, b => Memory.cons a b []
  | (k, c) :: rest, a, b =>
    if a < k then Memory.cons a b ((k, c) :: rest)
    else if a = k then Memory.cons a b rest
    else (k, c) :: Memory.insert rest a b

/-- `MemRead(addr, 1)` (00_scope.md R7): total, since every 12-bit address exists. -/
def Memory.read (m : Memory) (a : Addr) : Byte := m.lookup a.toNat

/-- `MemWrite(addr, 1, v)` (00_scope.md R7). -/
def Memory.write (m : Memory) (a : Addr) (b : Byte) : Memory := m.insert a.toNat b

/-- Writes at ascending addresses, modulo 4096 (20_memory.md R42, R44). -/
def Memory.writeBytes (m : Memory) (a : Addr) : List Byte → Memory
  | [] => m
  | b :: bs => (m.write a b).writeBytes (a + 1) bs

/-- Reads at ascending addresses, modulo 4096 (20_memory.md R42, R44). -/
def Memory.readBytes (m : Memory) (a : Addr) : Nat → List Byte
  | 0 => []
  | n + 1 => m.read a :: m.readBytes (a + 1) n

/-- The canonical form: addresses strictly rising and inside the 4096 bytes, no cell equal to
what the unlisted address reads as. -/
abbrev Memory.wf (m : Memory) : Prop :=
  m.Pairwise (fun c d => c.1 < d.1) ∧
    ∀ c ∈ m, c.1 < Config.memSize ∧ c.2 ≠ Memory.unlisted c.1

/-! ### Registers (10_state.md R11 to R15) -/

/-- Register number 15, `VF`. -/
def flagReg : Reg := 15

/-- A read of `V[x]`. -/
def State.getV (s : State) (x : Reg) : Byte := s.v[x.val]

/-- `V[x] <- b`. -/
def State.setV (s : State) (x : Reg) (b : Byte) : State := { s with v := s.v.set x.val b }

/-- The byte a flag leaves in `VF`: 1 or 0 (10_state.md R13). -/
def flagByte (f : Bool) : Byte := if f then 1 else 0

/-- `V[15] <- 1` or `V[15] <- 0`. -/
def State.setFlag (s : State) (f : Bool) : State := s.setV flagReg (flagByte f)

/-- Result first, flag last: with `x = 15` the flag is what stays (10_state.md R13; decision D9). -/
def State.setVAndFlag (s : State) (x : Reg) (b : Byte) (f : Bool) : State :=
  (s.setV x b).setFlag f

/-- `I <- a`. -/
def State.setI (s : State) (a : Addr) : State := { s with i := a }

/-- `pc <- target`. -/
def State.setPc (s : State) (a : Addr) : State := { s with pc := a }

/-- `pc <- (pc + 2) mod 4096`, one instruction on (40_dispatcher_step.md R87). -/
def State.advance (s : State) : State := s.setPc (s.pc + 2)

/-- A skip: four bytes on where the condition holds, two where it does not (40_dispatcher_step.md R88). -/
def State.skipIf (s : State) (c : Bool) : State := s.setPc (if c then s.pc + 4 else s.pc + 2)

/-- The registers from number `k` upwards take the bytes in order; a byte past register 15
goes nowhere. -/
def setRegsFrom (v : Vector Byte 16) (k : Nat) : List Byte → Vector Byte 16
  | [] => v
  | b :: bs => setRegsFrom (v.setIfInBounds k b) (k + 1) bs

/-- `V[0]` .. `V[x]` in order. -/
def State.regsUpTo (s : State) (x : Reg) : List Byte := s.v.toList.take (x.val + 1)

/-! ### Memory as the instructions reach it: through `I` (43_index_and_memory.md R146) -/

/-- Stores bytes at `I`, `I + 1`, … modulo 4096. -/
def State.storeAtI (s : State) (bs : List Byte) : State := { s with mem := s.mem.writeBytes s.i bs }

/-- The `n` bytes at `I`, `I + 1`, … modulo 4096. -/
def State.loadAtI (s : State) (n : Nat) : List Byte := s.mem.readBytes s.i n

/-! ### The call stack (10_state.md R16, R17) -/

/-- Push: `STACK[SP] <- a; SP <- SP + 1`, where `SP < 16`. -/
def State.push (s : State) (a : Addr) : Option State :=
  if h : s.sp.val < 16 then
    some { s with stack := s.stack.set s.sp.val a, sp := ⟨s.sp.val + 1, by omega⟩ }
  else none

/-- Pop: `SP <- SP - 1`, the popped value is `STACK[SP]`, where `SP > 0`.  The entry stays (R17). -/
def State.pop (s : State) : Option (Addr × State) :=
  if h : 0 < s.sp.val then
    some (s.stack[s.sp.val - 1], { s with sp := ⟨s.sp.val - 1, by omega⟩ })
  else none

/-! ### The timers and the end of a step (40_dispatcher_step.md R80, R89 to R92) -/

/-- One decrement, "no effect at 0". -/
def countDown (b : Byte) : Byte := if b = 0 then 0 else b - 1

/-- `tick()` (R89). -/
def State.tick (s : State) : State :=
  { s with
    dt := countDown s.dt
    soundPending := s.soundPending || s.st == 1
    st := countDown s.st }

/-- What every step that ticks does after its execute stage: `WAIT <- 0`, the tick, and the
report (R80). -/
def State.retire (s : State) (r : Condition) : State :=
  { s.tick with wait := false, report := r }

/-- The end of a step that completes its instruction: `WAIT <- 0; tick(); return Ok` (R80). -/
def complete (s : State) : Result := .next (s.retire .ok)

/-- A stall of the key-wait: `WAIT <- 1; return Ok`; no tick, nothing else changes (R90, R92). -/
def stall (s : State) : Result := .next { s with wait := true, report := .ok }

/-! ### The conditions of a step (60_exceptions.md)

There is no trap entry in the architectural sense and no return (R227, R228): a fatal
condition ends the step with no state changed, the recoverable one is reported after the step
has advanced. -/

/-- A fatal condition: the step changes nothing (R221, R222). -/
def raiseFatal (f : Fault) : Result := .fault f

/-- `UnknownOpcode(instr, pc0)`: `pc <- pc0 + 2`, `WAIT <- 0`, tick, report (R223;
40_dispatcher_step.md R91). -/
def reportUnknown (word : Opcode) (s : State) : Result :=
  .next (s.advance.retire (.unknownOpcode word s.pc))

/-! ### The display (44_display.md) -/

/-- The pixel `DISP[x][y]`. -/
def Display.get (d : Display) (x : Col) (y : Row) : Bool := (d[x.val])[y.val]

/-- `DISP[x][y] <- b`. -/
def Display.put (d : Display) (x : Col) (y : Row) (b : Bool) : Display :=
  d.set x.val (d[x.val].set y.val b)

/-- The column of a pixel: modulo 64 (R163; decision D11). -/
def colOf (n : Nat) : Col := Fin.ofNat 64 n

/-- The row of a pixel: modulo 32 (R163; decision D11). -/
def rowOf (n : Nat) : Row := Fin.ofNat 32 n

/-- One sprite bit of 1: note a set pixel about to be cleared, then toggle it (R161, R164). -/
def togglePixel (x : Col) (y : Row) (acc : Display × Bool) : Display × Bool :=
  (acc.1.put x y (!acc.1.get x y), acc.2 || acc.1.get x y)

/-- The eight columns of one sprite row, the first `c` of them still to come counted down from
8: column `8 - c` takes bit `c - 1`, so bit 7 is leftmost (R161, R162). -/
def blitRow (b : Byte) (x0 y : Nat) : Nat → Display × Bool → Display × Bool
  | 0, acc => acc
  | c + 1, acc =>
    blitRow b x0 y c
      (if b.getLsbD c then togglePixel (colOf (x0 + (7 - c))) (rowOf y) acc else acc)

/-- The sprite rows from display row `y` downwards (R161). -/
def blitRows (x0 : Nat) : Nat → List Byte → Display × Bool → Display × Bool
  | _, [], acc => acc
  | y, b :: bs, acc => blitRows x0 (y + 1) bs (blitRow b x0 y 8 acc)

/-- A sprite at column `x0` and row `y0`: the display after it, and whether a set pixel was
cleared (R161). -/
def blit (d : Display) (x0 y0 : Nat) (rows : List Byte) : Display × Bool :=
  blitRows x0 y0 rows (d, false)

end Sys2Proof.Machine
end

