-- ==== Sys2Proof/Machine/Operands.lean ====
section
/-! DEFINITION. The operand forms that are computed from registers: the key code, the font digit,
the offset jump target, the decimal digits, the random byte (spec/30_encoding.md R64). -/

namespace Sys2Proof.Machine

/-- `V[x][3:0]` as a number 0 to 15: the high nibble is ignored (decisions D13, D14). -/
def lowNibble (b : Byte) : Fin 16 := (b.extractLsb' 0 4).toFin

/-- The key code in register `x` (45_input_timers_random.md R180). -/
def State.keyCodeOf (s : State) (x : Reg) : KeyCode := lowNibble (s.getV x)

/-- `KEY[k]`. -/
def State.pressed (s : State) (k : KeyCode) : Bool := s.key[k.val]

/-- The least key code pressed, where there is one (45_input_timers_random.md R182; decision D15). -/
def State.lowestKey (s : State) : Option KeyCode := (List.finRange 16).find? s.pressed

/-- A 12-bit address plus a register: the sum modulo 4096 (41_control_transfer.md R103,
43_index_and_memory.md R141). -/
def addrPlus (a : Addr) (b : Byte) : Addr := a + b.setWidth 12

/-- `FONT_BASE + 5 * digit` (43_index_and_memory.md R142). -/
def glyphAddr (digit : Fin 16) : Addr :=
  Config.fontBase + BitVec.ofNat 12 (Config.glyphHeight * digit.val)

/-- Hundreds, tens and units, one whole byte each (43_index_and_memory.md R143). -/
def decimalDigits (b : Byte) : List Byte :=
  [BitVec.ofNat 8 (b.toNat / 100), BitVec.ofNat 8 (b.toNat / 10 % 10), BitVec.ofNat 8 (b.toNat % 10)]

/-- The input `rnd` of this step: what the driver supplied, else the free value
(45_input_timers_random.md R186; log entry 14). -/
def State.rnd (s : State) : Byte := s.rndIn.getD (Config.freeRnd s.draws)

end Sys2Proof.Machine
end

