-- ==== Sys2Proof/Machine/Flags.lean ====
section
/-! DEFINITION. The flags that go to `VF`: the table of spec/10_state.md R13.  Each is a comparison
of exact unsigned numbers, or one bit of the old operand. -/

namespace Sys2Proof.Machine

/-- `ADD Vx,Vy`: the unsigned sum exceeds 255 (42_immediate_and_alu.md R126). -/
def carryOut (a b : Byte) : Bool := decide (255 < a.toNat + b.toNat)

/-- `SUB`, `SUBN`: the minuend is at least the subtrahend, "no borrow" (R127, R129). -/
def noBorrow (minuend subtrahend : Byte) : Bool := decide (subtrahend.toNat ≤ minuend.toNat)

/-- `SHR`: bit 0 of the original value (R128). -/
def shiftedOutRight (a : Byte) : Bool := a.getLsbD 0

/-- `SHL`: bit 7 of the original value (R130). -/
def shiftedOutLeft (a : Byte) : Bool := a.getLsbD 7

/-- `ADD I,Vx`: the sum exceeds 4095 (43_index_and_memory.md R141; decision D3 for the 0). -/
def indexOverflow (i : Addr) (b : Byte) : Bool := decide (4095 < i.toNat + b.toNat)

end Sys2Proof.Machine
end

