-- ==== Sys2Proof/Machine/Alu.lean ====
section
/-! DEFINITION. The meanings of the immediate loads and the ALU (spec/42_immediate_and_alu.md R120
to R131).  Operands are read from the state before the step (spec/40_dispatcher_step.md R86);
where result and flag both go to `V[15]` the flag is last (spec/10_state.md R13). -/

namespace Sys2Proof.Machine

/-- The shape of an instruction that writes one register: the write, then one instruction on. -/
def writeReg (x : Reg) (b : Byte) (s : State) : Result := complete (s.setV x b).advance

/-- The shape of an instruction that writes a register and the flag. -/
def writeRegFlag (x : Reg) (b : Byte) (f : Bool) (s : State) : Result :=
  complete (s.setVAndFlag x b f).advance

/-- `LD Vx,NN` (R120). -/
def execLdVxNN (x : Reg) (nn : Byte) (s : State) : Result := writeReg x nn s

/-- `ADD Vx,NN` (R121): wraps, no flag. -/
def execAddVxNN (x : Reg) (nn : Byte) (s : State) : Result := writeReg x (s.getV x + nn) s

/-- `LD Vx,Vy` (R122). -/
def execLdVxVy (x y : Reg) (s : State) : Result := writeReg x (s.getV y) s

/-- `OR Vx,Vy` (R123): no flag. -/
def execOrVxVy (x y : Reg) (s : State) : Result := writeReg x (s.getV x ||| s.getV y) s

/-- `AND Vx,Vy` (R124): no flag. -/
def execAndVxVy (x y : Reg) (s : State) : Result := writeReg x (s.getV x &&& s.getV y) s

/-- `XOR Vx,Vy` (R125): no flag. -/
def execXorVxVy (x y : Reg) (s : State) : Result := writeReg x (s.getV x ^^^ s.getV y) s

/-- `ADD Vx,Vy` (R126): `VF` is the carry out. -/
def execAddVxVy (x y : Reg) (s : State) : Result :=
  writeRegFlag x (s.getV x + s.getV y) (carryOut (s.getV x) (s.getV y)) s

/-- `SUB Vx,Vy` (R127): `V[X] - V[Y]`, `VF` is 1 where there is no borrow. -/
def execSubVxVy (x y : Reg) (s : State) : Result :=
  writeRegFlag x (s.getV x - s.getV y) (noBorrow (s.getV x) (s.getV y)) s

/-- `SHR Vx` (R128): `V[X]` in place, the field Y is ignored (decision D10). -/
def execShrVx (x _y : Reg) (s : State) : Result :=
  writeRegFlag x (s.getV x >>> 1) (shiftedOutRight (s.getV x)) s

/-- `SUBN Vx,Vy` (R129): `V[Y] - V[X]` into `V[X]`. -/
def execSubnVxVy (x y : Reg) (s : State) : Result :=
  writeRegFlag x (s.getV y - s.getV x) (noBorrow (s.getV y) (s.getV x)) s

/-- `SHL Vx` (R130): `V[X]` in place, the field Y is ignored (decision D10). -/
def execShlVx (x _y : Reg) (s : State) : Result :=
  writeRegFlag x (s.getV x <<< 1) (shiftedOutLeft (s.getV x)) s

end Sys2Proof.Machine
end

