-- ==== Sys2Proof/Syntax.lean ====
section
/-! DEFINITION. The instructions: one constructor per row of spec/opcode_table.json (spec/30_encoding.md
R66), the result of decoding a word (R65, R67), and the row of the opcode table an
instruction belongs to. -/

namespace Sys2Proof

/-- The 34 instructions of 30_encoding.md R66.  Registers are `Reg`, an immediate byte
`NN` a `Byte`, an address `NNN` an `Addr`, and the row count `N` of `DRW` a number (R62, R64). -/
inductive Instr where
  /-- `CLS`, 00E0 -/
  | cls
  /-- `RET`, 00EE -/
  | ret
  /-- `JP NNN`, 1NNN -/
  | jpNNN (nnn : Addr)
  /-- `CALL NNN`, 2NNN -/
  | callNNN (nnn : Addr)
  /-- `SE Vx,NN`, 3XNN -/
  | seVxNN (x : Reg) (nn : Byte)
  /-- `SNE Vx,NN`, 4XNN -/
  | sneVxNN (x : Reg) (nn : Byte)
  /-- `SE Vx,Vy`, 5XY0 -/
  | seVxVy (x y : Reg)
  /-- `LD Vx,NN`, 6XNN -/
  | ldVxNN (x : Reg) (nn : Byte)
  /-- `ADD Vx,NN`, 7XNN -/
  | addVxNN (x : Reg) (nn : Byte)
  /-- `LD Vx,Vy`, 8XY0 -/
  | ldVxVy (x y : Reg)
  /-- `OR Vx,Vy`, 8XY1 -/
  | orVxVy (x y : Reg)
  /-- `AND Vx,Vy`, 8XY2 -/
  | andVxVy (x y : Reg)
  /-- `XOR Vx,Vy`, 8XY3 -/
  | xorVxVy (x y : Reg)
  /-- `ADD Vx,Vy`, 8XY4 -/
  | addVxVy (x y : Reg)
  /-- `SUB Vx,Vy`, 8XY5 -/
  | subVxVy (x y : Reg)
  /-- `SHR Vx`, 8XY6; the field Y is in the word and ignored (R68) -/
  | shrVx (x y : Reg)
  /-- `SUBN Vx,Vy`, 8XY7 -/
  | subnVxVy (x y : Reg)
  /-- `SHL Vx`, 8XYE; the field Y is in the word and ignored (R68) -/
  | shlVx (x y : Reg)
  /-- `SNE Vx,Vy`, 9XY0 -/
  | sneVxVy (x y : Reg)
  /-- `LD I,NNN`, ANNN -/
  | ldINNN (nnn : Addr)
  /-- `JP V0,NNN`, BNNN -/
  | jpV0NNN (nnn : Addr)
  /-- `RND Vx,NN`, CXNN -/
  | rndVxNN (x : Reg) (nn : Byte)
  /-- `DRW Vx,Vy,N`, DXYN -/
  | drwVxVyN (x y : Reg) (n : Nat)
  /-- `SKP Vx`, EX9E -/
  | skpVx (x : Reg)
  /-- `SKNP Vx`, EXA1 -/
  | sknpVx (x : Reg)
  /-- `LD Vx,DT`, FX07 -/
  | ldVxDT (x : Reg)
  /-- `LD Vx,K`, FX0A -/
  | ldVxK (x : Reg)
  /-- `LD DT,Vx`, FX15 -/
  | ldDTVx (x : Reg)
  /-- `LD ST,Vx`, FX18 -/
  | ldSTVx (x : Reg)
  /-- `ADD I,Vx`, FX1E -/
  | addIVx (x : Reg)
  /-- `LD F,Vx`, FX29 -/
  | ldFVx (x : Reg)
  /-- `LD B,Vx`, FX33 -/
  | ldBVx (x : Reg)
  /-- `LD [I],Vx`, FX55 -/
  | ldAtIVx (x : Reg)
  /-- `LD Vx,[I]`, FX65 -/
  | ldVxAtI (x : Reg)
deriving DecidableEq, Repr

/-- What decoding a word gives: one of the 34 instructions, or `Unknown` (30_encoding.md R65, R67). -/
inductive Decoded where
  /-- the word is this instruction -/
  | instr (i : Instr)
  /-- the word matches no row of R66 -/
  | unknown (word : Opcode)
deriving DecidableEq, Repr

/-- The columns "mask" and "match" of one row of the opcode map: a word belongs to the row
when `word AND mask = bits` (30_encoding.md R66). -/
structure OpcodeRow where
  mask : Opcode
  bits : Opcode
deriving DecidableEq, Repr

end Sys2Proof
end

