-- ==== Sys2Proof/WellFormed.lean ====
section
/-! DEFINITION. When an instruction term is one the encoding admits.  Registers, immediates
and addresses have exactly the width of their fields; the row count of `DRW` is a number,
which its four-bit field bounds (spec/30_encoding.md R62, R64). -/

namespace Sys2Proof

/-- The one operand whose type is wider than its field: `N` of `DRW`, "an unsigned row
count 0 to 15" (30_encoding.md R64). -/
def Instr.wellFormed : Instr → Bool
  | .drwVxVyN _ _ n => n < 16
  | .cls | .ret => true
  | .jpNNN _ | .callNNN _ | .ldINNN _ | .jpV0NNN _ => true
  | .seVxNN _ _ | .sneVxNN _ _ | .ldVxNN _ _ | .addVxNN _ _ | .rndVxNN _ _ => true
  | .seVxVy _ _ | .sneVxVy _ _ | .ldVxVy _ _ | .orVxVy _ _ | .andVxVy _ _ | .xorVxVy _ _ => true
  | .addVxVy _ _ | .subVxVy _ _ | .shrVx _ _ | .subnVxVy _ _ | .shlVx _ _ => true
  | .skpVx _ | .sknpVx _ | .ldVxDT _ | .ldVxK _ | .ldDTVx _ | .ldSTVx _ => true
  | .addIVx _ | .ldFVx _ | .ldBVx _ | .ldAtIVx _ | .ldVxAtI _ => true

end Sys2Proof
end

