-- ==== Sys2Proof/Decode.lean ====
section
/-! DEFINITION. The decoder, total on the 65536 words (spec/30_encoding.md R65 to R67), the
encoder written from the formats of R63, and the opcode map of R66 as rows of mask and match. -/

namespace Sys2Proof

/-! ### The fields of a word (30_encoding.md R62) -/

/-- `OP = instr[15:12]`, the class. -/
def opField (w : Opcode) : BitVec 4 := w.extractLsb' 12 4

/-- `X = instr[11:8]`. -/
def xField (w : Opcode) : BitVec 4 := w.extractLsb' 8 4

/-- `Y = instr[7:4]`. -/
def yField (w : Opcode) : BitVec 4 := w.extractLsb' 4 4

/-- `N = instr[3:0]`. -/
def nField (w : Opcode) : BitVec 4 := w.extractLsb' 0 4

/-- `NN = instr[7:0]`. -/
def nnField (w : Opcode) : Byte := w.extractLsb' 0 8

/-- `NNN = instr[11:0]`. -/
def nnnField (w : Opcode) : Addr := w.extractLsb' 0 12

/-- The register a four-bit field names (30_encoding.md R64). -/
def regOf (b : BitVec 4) : Reg := b.toFin

/-- The four-bit field that names a register. -/
def regBits (x : Reg) : BitVec 4 := BitVec.ofFin x

/-- The operand X of a word. -/
def xReg (w : Opcode) : Reg := regOf (xField w)

/-- The operand Y of a word. -/
def yReg (w : Opcode) : Reg := regOf (yField w)

/-! ### Decoding (30_encoding.md R65): the class first, then the selector -/

/-- Class 0: all 16 bits select (R65; decision D18). -/
def decodeClass0 (w : Opcode) : Decoded :=
  if w = 0x00E0 then .instr .cls
  else if w = 0x00EE then .instr .ret
  else .unknown w

/-- Class 8: the bottom four bits select (R65; decision D19). -/
def decodeClass8 (w : Opcode) : Decoded :=
  match (nField w).toNat with
  | 0x0 => .instr (.ldVxVy (xReg w) (yReg w))
  | 0x1 => .instr (.orVxVy (xReg w) (yReg w))
  | 0x2 => .instr (.andVxVy (xReg w) (yReg w))
  | 0x3 => .instr (.xorVxVy (xReg w) (yReg w))
  | 0x4 => .instr (.addVxVy (xReg w) (yReg w))
  | 0x5 => .instr (.subVxVy (xReg w) (yReg w))
  | 0x6 => .instr (.shrVx (xReg w) (yReg w))
  | 0x7 => .instr (.subnVxVy (xReg w) (yReg w))
  | 0xE => .instr (.shlVx (xReg w) (yReg w))
  | _ => .unknown w

/-- Class E: the bottom eight bits select (R65; decision D19). -/
def decodeClassE (w : Opcode) : Decoded :=
  match (nnField w).toNat with
  | 0x9E => .instr (.skpVx (xReg w))
  | 0xA1 => .instr (.sknpVx (xReg w))
  | _ => .unknown w

/-- Class F: the bottom eight bits select (R65; decision D19). -/
def decodeClassF (w : Opcode) : Decoded :=
  match (nnField w).toNat with
  | 0x07 => .instr (.ldVxDT (xReg w))
  | 0x0A => .instr (.ldVxK (xReg w))
  | 0x15 => .instr (.ldDTVx (xReg w))
  | 0x18 => .instr (.ldSTVx (xReg w))
  | 0x1E => .instr (.addIVx (xReg w))
  | 0x29 => .instr (.ldFVx (xReg w))
  | 0x33 => .instr (.ldBVx (xReg w))
  | 0x55 => .instr (.ldAtIVx (xReg w))
  | 0x65 => .instr (.ldVxAtI (xReg w))
  | _ => .unknown w

/-- `decode(instr)` (40_dispatcher_step.md R82; 30_encoding.md R65, R66). -/
def decodeWord (w : Opcode) : Decoded :=
  match (opField w).toNat with
  | 0x0 => decodeClass0 w
  | 0x1 => .instr (.jpNNN (nnnField w))
  | 0x2 => .instr (.callNNN (nnnField w))
  | 0x3 => .instr (.seVxNN (xReg w) (nnField w))
  | 0x4 => .instr (.sneVxNN (xReg w) (nnField w))
  | 0x5 => if nField w = 0 then .instr (.seVxVy (xReg w) (yReg w)) else .unknown w
  | 0x6 => .instr (.ldVxNN (xReg w) (nnField w))
  | 0x7 => .instr (.addVxNN (xReg w) (nnField w))
  | 0x8 => decodeClass8 w
  | 0x9 => if nField w = 0 then .instr (.sneVxVy (xReg w) (yReg w)) else .unknown w
  | 0xA => .instr (.ldINNN (nnnField w))
  | 0xB => .instr (.jpV0NNN (nnnField w))
  | 0xC => .instr (.rndVxNN (xReg w) (nnField w))
  | 0xD => .instr (.drwVxVyN (xReg w) (yReg w) (nField w).toNat)
  | 0xE => decodeClassE w
  | 0xF => decodeClassF w
  | _ => .unknown w

/-- The instruction word of two bytes as they stand in memory, the one at the lower
address high: `instr = hi : lo` (20_memory.md R41). -/
def wordOfBytes (hi lo : Byte) : Opcode := hi ++ lo

/-- The byte at the lower address, `instr[15:8]`. -/
def hiByte (w : Opcode) : Byte := w.extractLsb' 8 8

/-- The byte at the higher address, `instr[7:0]`. -/
def loByte (w : Opcode) : Byte := w.extractLsb' 0 8

/-- The decoder on the bytes of memory. -/
def decodeBytes (hi lo : Byte) : Decoded := decodeWord (wordOfBytes hi lo)

/-- The instruction, where there is one. -/
def Decoded.toOption : Decoded → Option Instr
  | .instr i => some i
  | .unknown _ => none

/-- The 16-bit word of an opcode-table row: the bits above `nbits` are 0. -/
def tableWord (nbits w : Nat) : Opcode := BitVec.ofNat 16 (w % 2 ^ nbits)

/-- The instruction the decoder reads from the bytes of a word numbered as
spec/opcode_table.json numbers it. -/
def decodeTableWord (nbits w : Nat) : Option Instr :=
  (decodeBytes (hiByte (tableWord nbits w)) (loByte (tableWord nbits w))).toOption

/-! ### Encoding: the formats of 30_encoding.md R63 -/

/-- Format `FA`: `cccc aaaa aaaa aaaa`. -/
def formatFA (c : BitVec 4) (nnn : Addr) : Opcode := c ++ nnn

/-- Format `FXK`: `cccc xxxx kkkk kkkk`. -/
def formatFXK (c : BitVec 4) (x : Reg) (nn : Byte) : Opcode := c ++ (regBits x ++ nn)

/-- Format `FXY`: `cccc xxxx yyyy ssss`. -/
def formatFXY (c : BitVec 4) (x y : Reg) (sel : BitVec 4) : Opcode :=
  c ++ (regBits x ++ (regBits y ++ sel))

/-- Format `FXYN`: `1101 xxxx yyyy nnnn`. -/
def formatFXYN (x y : Reg) (n : Nat) : Opcode := formatFXY 0xD x y (BitVec.ofNat 4 n)

/-- Format `FX`: `cccc xxxx ssss ssss`. -/
def formatFX (c : BitVec 4) (x : Reg) (sel : Byte) : Opcode := formatFXK c x sel

/-- The word of an instruction (30_encoding.md R63, R66). -/
def encodeWord : Instr → Opcode
  | .cls => 0x00E0
  | .ret => 0x00EE
  | .jpNNN nnn => formatFA 0x1 nnn
  | .callNNN nnn => formatFA 0x2 nnn
  | .seVxNN x nn => formatFXK 0x3 x nn
  | .sneVxNN x nn => formatFXK 0x4 x nn
  | .seVxVy x y => formatFXY 0x5 x y 0x0
  | .ldVxNN x nn => formatFXK 0x6 x nn
  | .addVxNN x nn => formatFXK 0x7 x nn
  | .ldVxVy x y => formatFXY 0x8 x y 0x0
  | .orVxVy x y => formatFXY 0x8 x y 0x1
  | .andVxVy x y => formatFXY 0x8 x y 0x2
  | .xorVxVy x y => formatFXY 0x8 x y 0x3
  | .addVxVy x y => formatFXY 0x8 x y 0x4
  | .subVxVy x y => formatFXY 0x8 x y 0x5
  | .shrVx x y => formatFXY 0x8 x y 0x6
  | .subnVxVy x y => formatFXY 0x8 x y 0x7
  | .shlVx x y => formatFXY 0x8 x y 0xE
  | .sneVxVy x y => formatFXY 0x9 x y 0x0
  | .ldINNN nnn => formatFA 0xA nnn
  | .jpV0NNN nnn => formatFA 0xB nnn
  | .rndVxNN x nn => formatFXK 0xC x nn
  | .drwVxVyN x y n => formatFXYN x y n
  | .skpVx x => formatFX 0xE x 0x9E
  | .sknpVx x => formatFX 0xE x 0xA1
  | .ldVxDT x => formatFX 0xF x 0x07
  | .ldVxK x => formatFX 0xF x 0x0A
  | .ldDTVx x => formatFX 0xF x 0x15
  | .ldSTVx x => formatFX 0xF x 0x18
  | .addIVx x => formatFX 0xF x 0x1E
  | .ldFVx x => formatFX 0xF x 0x29
  | .ldBVx x => formatFX 0xF x 0x33
  | .ldAtIVx x => formatFX 0xF x 0x55
  | .ldVxAtI x => formatFX 0xF x 0x65

/-- The two bytes of an instruction in memory, the lower address first (20_memory.md R41). -/
def encodeBytes (i : Instr) : List Byte := [hiByte (encodeWord i), loByte (encodeWord i)]

/-! ### The opcode map of 30_encoding.md R66, columns "mask" and "match" -/

/-- The row of R66 an instruction belongs to. -/
def Instr.row : Instr → OpcodeRow
  | .cls => ⟨0xFFFF, 0x00E0⟩
  | .ret => ⟨0xFFFF, 0x00EE⟩
  | .jpNNN _ => ⟨0xF000, 0x1000⟩
  | .callNNN _ => ⟨0xF000, 0x2000⟩
  | .seVxNN _ _ => ⟨0xF000, 0x3000⟩
  | .sneVxNN _ _ => ⟨0xF000, 0x4000⟩
  | .seVxVy _ _ => ⟨0xF00F, 0x5000⟩
  | .ldVxNN _ _ => ⟨0xF000, 0x6000⟩
  | .addVxNN _ _ => ⟨0xF000, 0x7000⟩
  | .ldVxVy _ _ => ⟨0xF00F, 0x8000⟩
  | .orVxVy _ _ => ⟨0xF00F, 0x8001⟩
  | .andVxVy _ _ => ⟨0xF00F, 0x8002⟩
  | .xorVxVy _ _ => ⟨0xF00F, 0x8003⟩
  | .addVxVy _ _ => ⟨0xF00F, 0x8004⟩
  | .subVxVy _ _ => ⟨0xF00F, 0x8005⟩
  | .shrVx _ _ => ⟨0xF00F, 0x8006⟩
  | .subnVxVy _ _ => ⟨0xF00F, 0x8007⟩
  | .shlVx _ _ => ⟨0xF00F, 0x800E⟩
  | .sneVxVy _ _ => ⟨0xF00F, 0x9000⟩
  | .ldINNN _ => ⟨0xF000, 0xA000⟩
  | .jpV0NNN _ => ⟨0xF000, 0xB000⟩
  | .rndVxNN _ _ => ⟨0xF000, 0xC000⟩
  | .drwVxVyN _ _ _ => ⟨0xF000, 0xD000⟩
  | .skpVx _ => ⟨0xF0FF, 0xE09E⟩
  | .sknpVx _ => ⟨0xF0FF, 0xE0A1⟩
  | .ldVxDT _ => ⟨0xF0FF, 0xF007⟩
  | .ldVxK _ => ⟨0xF0FF, 0xF00A⟩
  | .ldDTVx _ => ⟨0xF0FF, 0xF015⟩
  | .ldSTVx _ => ⟨0xF0FF, 0xF018⟩
  | .addIVx _ => ⟨0xF0FF, 0xF01E⟩
  | .ldFVx _ => ⟨0xF0FF, 0xF029⟩
  | .ldBVx _ => ⟨0xF0FF, 0xF033⟩
  | .ldAtIVx _ => ⟨0xF0FF, 0xF055⟩
  | .ldVxAtI _ => ⟨0xF0FF, 0xF065⟩

/-- One instruction of each row of R66, in the table's order. -/
def oneOfEachRow : List Instr :=
  [.cls, .ret, .jpNNN 0, .callNNN 0, .seVxNN 0 0, .sneVxNN 0 0, .seVxVy 0 0, .ldVxNN 0 0,
   .addVxNN 0 0, .ldVxVy 0 0, .orVxVy 0 0, .andVxVy 0 0, .xorVxVy 0 0, .addVxVy 0 0,
   .subVxVy 0 0, .shrVx 0 0, .subnVxVy 0 0, .shlVx 0 0, .sneVxVy 0 0, .ldINNN 0,
   .jpV0NNN 0, .rndVxNN 0 0, .drwVxVyN 0 0 0, .skpVx 0, .sknpVx 0, .ldVxDT 0, .ldVxK 0,
   .ldDTVx 0, .ldSTVx 0, .addIVx 0, .ldFVx 0, .ldBVx 0, .ldAtIVx 0, .ldVxAtI 0]

/-- The opcode map: the 34 rows of mask and match. -/
def opcodeMap : List OpcodeRow := oneOfEachRow.map Instr.row

/-- A word belongs to a row when `(instr AND mask) = match` (30_encoding.md R66). -/
def OpcodeRow.holds (r : OpcodeRow) (w : Opcode) : Bool := w &&& r.mask == r.bits

end Sys2Proof
end

