-- ==== Sys2Proof/Machine/ControlTransfer.lean ====
section
/-! DEFINITION. The meanings of the control transfers (spec/41_control_transfer.md R100 to R108). -/

namespace Sys2Proof.Machine

/-- `RET` (R100): pop, then two bytes on; `StackUnderflow` on an empty stack (60_exceptions.md R222). -/
def execRet (s : State) : Result :=
  match s.pop with
  | some (a, s') => complete (s'.setPc (a + 2))
  | none => raiseFatal (.stackUnderflow (encodeWord .ret) s.pc)

/-- `JP NNN` (R101). -/
def execJpNNN (nnn : Addr) (s : State) : Result := complete (s.setPc nnn)

/-- `CALL NNN` (R102): push the address of the `CALL` itself, then jump; `StackOverflow` on a
full stack (60_exceptions.md R221). -/
def execCallNNN (nnn : Addr) (s : State) : Result :=
  match s.push s.pc with
  | some s' => complete (s'.setPc nnn)
  | none => raiseFatal (.stackOverflow (encodeWord (.callNNN nnn)) s.pc)

/-- `JP V0,NNN` (R103). -/
def execJpV0NNN (nnn : Addr) (s : State) : Result := complete (s.setPc (addrPlus nnn (s.getV 0)))

/-- `SE Vx,NN` (R104). -/
def execSeVxNN (x : Reg) (nn : Byte) (s : State) : Result := complete (s.skipIf (s.getV x == nn))

/-- `SNE Vx,NN` (R105). -/
def execSneVxNN (x : Reg) (nn : Byte) (s : State) : Result := complete (s.skipIf (s.getV x != nn))

/-- `SE Vx,Vy` (R106). -/
def execSeVxVy (x y : Reg) (s : State) : Result := complete (s.skipIf (s.getV x == s.getV y))

/-- `SNE Vx,Vy` (R107). -/
def execSneVxVy (x y : Reg) (s : State) : Result := complete (s.skipIf (s.getV x != s.getV y))

end Sys2Proof.Machine
end

