-- ==== Sys2Proof/Machine/DisplayOps.lean ====
section
/-! DEFINITION. The meanings of the display instructions (spec/44_display.md R160 to R166). -/

namespace Sys2Proof.Machine

/-- The display a clear or a draw leaves, with `DRAW_PENDING` set whether or not a pixel
changed (10_state.md R22; decision D34). -/
def State.showDisplay (s : State) (d : Display) : State := { s with disp := d, drawPending := true }

/-- `CLS` (R160). -/
def execCls (s : State) : Result := complete (s.showDisplay blankDisplay).advance

/-- What `DRW` draws: the `n` bytes at `I`, at column `V[X]` and row `V[Y]` of the state before
the step (R161; 40_dispatcher_step.md R86). -/
def State.drawn (s : State) (x y : Reg) (n : Nat) : Display × Bool :=
  blit s.disp (s.getV x).toNat (s.getV y).toNat (s.loadAtI n)

/-- `DRW Vx,Vy,N` (R161): `VF` is the collision, written every time; `I` stays. -/
def execDrwVxVyN (x y : Reg) (n : Nat) (s : State) : Result :=
  complete ((s.showDisplay (s.drawn x y n).1).setFlag (s.drawn x y n).2).advance

end Sys2Proof.Machine
end

