-- ==== Sys2Proof/Machine/IndexMemory.lean ====
section
/-! DEFINITION. The meanings of the index and memory instructions (spec/43_index_and_memory.md R140
to R146). -/

namespace Sys2Proof.Machine

/-- `LD I,NNN` (R140). -/
def execLdINNN (nnn : Addr) (s : State) : Result := complete (s.setI nnn).advance

/-- `ADD I,Vx` (R141): the sum wraps modulo 4096, `VF` is the overflow, written every time
(decisions D2, D3). -/
def execAddIVx (x : Reg) (s : State) : Result :=
  complete ((s.setI (addrPlus s.i (s.getV x))).setFlag (indexOverflow s.i (s.getV x))).advance

/-- `LD F,Vx` (R142). -/
def execLdFVx (x : Reg) (s : State) : Result :=
  complete (s.setI (glyphAddr (lowNibble (s.getV x)))).advance

/-- `LD B,Vx` (R143): `I` stays. -/
def execLdBVx (x : Reg) (s : State) : Result :=
  complete (s.storeAtI (decimalDigits (s.getV x))).advance

/-- `I <- (I + X + 1) mod 4096`, the advance after a block transfer, with no flag (R144, R145;
decision D4). -/
def State.bumpI (s : State) (x : Reg) : State := s.setI (s.i + BitVec.ofNat 12 (x.val + 1))

/-- `LD [I],Vx` (R144): `V[0]` .. `V[X]` to memory, then `I` moves past them. -/
def execLdAtIVx (x : Reg) (s : State) : Result :=
  complete ((s.storeAtI (s.regsUpTo x)).bumpI x).advance

/-- `LD Vx,[I]` (R145): `V[0]` .. `V[X]` from memory, then `I` moves past the bytes. -/
def execLdVxAtI (x : Reg) (s : State) : Result :=
  complete (({ s with v := setRegsFrom s.v 0 (s.loadAtI (x.val + 1)) }).bumpI x).advance

end Sys2Proof.Machine
end

