-- ==== Sys2Proof/Machine/InputTimers.lean ====
section
/-! DEFINITION. The meanings of the key, timer and random instructions
(spec/45_input_timers_random.md R180 to R188). -/

namespace Sys2Proof.Machine

/-- `SKP Vx` (R180). -/
def execSkpVx (x : Reg) (s : State) : Result := complete (s.skipIf (s.pressed (s.keyCodeOf x)))

/-- `SKNP Vx` (R181). -/
def execSknpVx (x : Reg) (s : State) : Result := complete (s.skipIf (!s.pressed (s.keyCodeOf x)))

/-- `LD Vx,K` (R182): a stall while no key is pressed, else the lowest pressed key's code. -/
def execLdVxK (x : Reg) (s : State) : Result :=
  match s.lowestKey with
  | none => stall s
  | some k => writeReg x (BitVec.ofNat 8 k.val) s

/-- `LD Vx,DT` (R183): the value before this step's tick. -/
def execLdVxDT (x : Reg) (s : State) : Result := writeReg x s.dt s

/-- `LD DT,Vx` (R184): the tick of the same step follows. -/
def execLdDTVx (x : Reg) (s : State) : Result := complete ({ s with dt := s.getV x }).advance

/-- `LD ST,Vx` (R185): the tick of the same step follows. -/
def execLdSTVx (x : Reg) (s : State) : Result := complete ({ s with st := s.getV x }).advance

/-- `RND Vx,NN` (R186): `rnd AND NN`; the counter of draws moves on (log entry 14). -/
def execRndVxNN (x : Reg) (nn : Byte) (s : State) : Result :=
  writeReg x (s.rnd &&& nn) { s with draws := s.draws + 1 }

end Sys2Proof.Machine
end

