-- ==== Sys2Proof/Machine/Fetch.lean ====
section
/-! DEFINITION. The fetch and decode stages (spec/40_dispatcher_step.md R81, R82; spec/20_memory.md R41),
and the placing of a word where the next step fetches it. -/

namespace Sys2Proof.Machine

/-- `instr = MemRead(pc) : MemRead((pc + 1) mod 4096)` (20_memory.md R41). -/
def State.fetch (s : State) : Opcode := wordOfBytes (s.mem.read s.pc) (s.mem.read (s.pc + 1))

/-- What the fetched word decodes to (R82). -/
def State.fetchDecoded (s : State) : Decoded := decodeWord s.fetch

/-- A word's two bytes stored at `pc` and `(pc + 1) mod 4096`, as `loadProgram` would leave them
(46_host_operations.md R204). -/
def State.placeWord (s : State) (w : Opcode) : State :=
  { s with mem := s.mem.writeBytes s.pc [hiByte w, loByte w] }

end Sys2Proof.Machine
end

