-- ==== Sys2Proof/Machine/Step.lean ====
section
/-! DEFINITION. One step: fetch, decode, and the meaning of the instruction, which ends with the
tick (spec/40_dispatcher_step.md R80); and how the host places a word where the next step
fetches. -/

namespace Sys2Proof.Machine

/-- `step` (R80): the meaning of the decoded instruction, or the report of an unknown word. -/
def step (s : State) : Host.Outcome State Fault Refusal :=
  match s.fetchDecoded with
  | .instr i => exec i s
  | .unknown w => reportUnknown w s

/-- `s` with an opcode-table word stored at `pc` and `pc + 1`, the high byte first. -/
def State.withFetchWord (s : State) (nbits w : Nat) : State := s.placeWord (tableWord nbits w)

end Sys2Proof.Machine
end

