-- ==== Sys2Proof/Machine/Driver.lean ====
section
/-! DEFINITION. The operations the driver applies to the block (spec/46_host_operations.md R200 to
R214): each is one atomic transition with arguments in and a reply out, refused on a block
that was never initialised. -/

namespace Sys2Proof.Machine

/-- The condition's numeric code (60_exceptions.md R220). -/
def Condition.code : Condition → Nat
  | .ok => 0
  | .unknownOpcode _ _ => 1
  | .stackOverflow _ _ => 2
  | .stackUnderflow _ _ => 3
  | .capacityError => 4

/-- The fatal conditions of a step (60_exceptions.md R220). -/
def Condition.fatal : Condition → Bool
  | .stackOverflow _ _ | .stackUnderflow _ _ => true
  | .ok | .unknownOpcode _ _ | .capacityError => false

/-- The condition the driver is handed for a fatal step (60_exceptions.md R227). -/
def Fault.condition : Fault → Condition
  | .stackOverflow w pc0 => .stackOverflow w pc0
  | .stackUnderflow w pc0 => .stackUnderflow w pc0

/-- The eight operations (R200) and the reading of `WAIT` (R211).  `init` is `initialize()`. -/
inductive DriverOp where
  | init
  | loadProgram (bytes : List Byte)
  | step (rnd : Byte)
  | pressKey (code : Nat)
  | releaseKey (code : Nat)
  | isDrawPending
  | consumeDisplayBuffer
  | isSoundPending
  | readWait
deriving DecidableEq, Repr

/-- What an operation hands back. -/
inductive Reply where
  | done
  | result (c : Condition)
  | bit (b : Bool)
  | snapshot (pixels : List Bool)
deriving DecidableEq, Repr

/-- The block as the driver holds it: never initialised (R212), or with a state and the
model's mark that a fatal result has been returned since the last `initialize`
(93_implementation_defined.md U7). -/
inductive Block where
  | uninitialised
  | ready (s : State) (fatalSeen : Bool)
deriving DecidableEq, Repr

/-- What a driver operation answers. -/
abbrev DriverResult := Host.Outcome (Block × Reply) Fault Refusal

/-- `loadProgram(bytes)` (R203): all or nothing, and nothing but memory. -/
def State.loadProgram (s : State) (bytes : List Byte) : State × Condition :=
  if Config.progMax < bytes.length then (s, .capacityError)
  else ({ s with mem := s.mem.writeBytes Config.progStart bytes }, .ok)

/-- `KEY[k] <- b` (R206, R207). -/
def State.setKey (s : State) (k : KeyCode) (b : Bool) : State := { s with key := s.key.set k.val b }

/-- The snapshot, row-major: element `64 * y + x` is `DISP[x][y]` (R209; decision D28). -/
def State.snapshot (s : State) : List Bool :=
  (List.finRange 32).flatMap fun y => (List.finRange 64).map fun x => s.disp.get x y

/-- `step(rnd)` (R205): the step with its input supplied; after a fatal result the state is
unchanged.  The input belongs to this step alone and is taken away after it. -/
def State.stepWith (s : State) (rnd : Byte) : Host.Outcome (State × Condition) Fault Refusal :=
  match Sys2Proof.Machine.step { s with rndIn := some rnd } with
  | .next t => .next ({ t with rndIn := none }, t.report)
  | .fault f => .next (s, f.condition)
  | .refused r => .refused r

/-- `pressKey(code)` and `releaseKey(code)`: refused outside 0 to 15 (R206, R207; decision D37). -/
def driveKey (s : State) (fatalSeen : Bool) (code : Nat) (b : Bool) : DriverResult :=
  if h : code < 16 then .next (.ready (s.setKey ⟨code, h⟩ b) fatalSeen, .done)
  else .refused (.keyCodeOutOfRange code)

/-- `step(rnd)` at the block: a fatal result leaves its mark (93_implementation_defined.md U7). -/
def driveStep (s : State) (fatalSeen : Bool) (rnd : Byte) : DriverResult :=
  match s.stepWith rnd with
  | .next (t, c) => .next (.ready t (fatalSeen || c.fatal), .result c)
  | .fault f => .fault f
  | .refused r => .refused r

/-- One operation on an initialised block. -/
def drive (s : State) (fatalSeen : Bool) : DriverOp → DriverResult
  | .init => .next (.ready .reset false, .done)
  | .loadProgram bytes =>
    .next (.ready (s.loadProgram bytes).1 fatalSeen, .result (s.loadProgram bytes).2)
  | .step rnd => driveStep s fatalSeen rnd
  | .pressKey code => driveKey s fatalSeen code true
  | .releaseKey code => driveKey s fatalSeen code false
  | .isDrawPending => .next (.ready s fatalSeen, .bit s.drawPending)
  | .consumeDisplayBuffer =>
    .next (.ready { s with drawPending := false } fatalSeen, .snapshot s.snapshot)
  | .isSoundPending =>
    .next (.ready { s with soundPending := false } fatalSeen, .bit s.soundPending)
  | .readWait => .next (.ready s fatalSeen, .bit s.wait)

/-- One operation on a block: before the first `initialize` no other is accepted (R212). -/
def Block.apply : Block → DriverOp → DriverResult
  | .ready s fatalSeen, op => drive s fatalSeen op
  | .uninitialised, .init => .next (.ready .reset false, .done)
  | .uninitialised, .loadProgram _ => .refused .uninitialised
  | .uninitialised, .step _ => .refused .uninitialised
  | .uninitialised, .pressKey _ => .refused .uninitialised
  | .uninitialised, .releaseKey _ => .refused .uninitialised
  | .uninitialised, .isDrawPending => .refused .uninitialised
  | .uninitialised, .consumeDisplayBuffer => .refused .uninitialised
  | .uninitialised, .isSoundPending => .refused .uninitialised
  | .uninitialised, .readWait => .refused .uninitialised

end Sys2Proof.Machine
end

