-- ==== Sys2Proof/Safety.lean ====
section
/-! DEFINITION. What counts as a safe step and a lawful state, and the terms the claims are
stated in: what an instruction touches, what it leaves alone, what a tick does
(spec/10_state.md R31; spec/40_dispatcher_step.md R89 to R92). -/

namespace Sys2Proof.Machine

/-- A step that is not fatal answers a next state (60_exceptions.md R220). -/
def SafeStep (s : State) : Prop := ∃ t, step s = .next t

/-- The invariant of the model's memory: its canonical form.  Every other bound of 10_state.md R31
is carried by a type of State. -/
def State.Inv (s : State) : Prop := s.mem.wf

/-- `WAIT` is honest: where it is 1, the instruction at `pc` is a key-wait, no key is pressed,
and the last step returned `Ok` (10_state.md R24). -/
def State.WaitHonest (s : State) : Prop :=
  s.wait = true →
    (∃ x, s.fetchDecoded = .instr (.ldVxK x)) ∧ (∀ k, s.pressed k = false) ∧ s.report = .ok

/-- What an instruction may write, timers, `pc`, `WAIT` and the model's own fields apart. -/
structure Touches where
  /-- the registers written -/
  regs : List Reg := []
  /-- `I` is written -/
  index : Bool := false
  /-- `SP` and the stack entries are written -/
  stack : Bool := false
  /-- the display and `DRAW_PENDING` are written -/
  display : Bool := false
  /-- the number of bytes stored, at `I` and the addresses that follow modulo 4096 -/
  bytesAtI : Nat := 0

/-- Everything outside `w` is as it was: every register, `I`, the stack, every byte of memory
outside the stored ones, the display, and the key latch. -/
def FrameBut (w : Touches) (s t : State) : Prop :=
  (∀ r, r ∉ w.regs → t.getV r = s.getV r) ∧
  (w.index = false → t.i = s.i) ∧
  (w.stack = false → t.sp = s.sp ∧ t.stack = s.stack) ∧
  (w.display = false → t.disp = s.disp ∧ t.drawPending = s.drawPending) ∧
  (∀ a : Addr, w.bytesAtI ≤ (a - s.i).toNat → t.mem.read a = s.mem.read a) ∧
  t.key = s.key

/-- The delay timer after a tick that finds it at `v`: one less, "no effect at 0" (R89). -/
def DelayTicksFrom (v : Byte) (t : State) : Prop := t.dt.toNat = v.toNat - 1

/-- The sound timer after a tick that finds it at `v`: one less, and the beep is signalled where
`v` is exactly 1 (R89). -/
def SoundTicksFrom (v : Byte) (s t : State) : Prop :=
  t.st.toNat = v.toNat - 1 ∧ (t.soundPending = true ↔ s.soundPending = true ∨ v.toNat = 1)

/-- Both timers tick from where they stood (R89). -/
def Ticks (s t : State) : Prop := DelayTicksFrom s.dt t ∧ SoundTicksFrom s.st s t

/-- `pc` moves `n` bytes on, modulo 4096 (R87, R88). -/
def PcMoves (n : Nat) (s t : State) : Prop := t.pc.toNat = (s.pc.toNat + n) % 4096

/-- The sprite bit that falls on the pixel `(px, py)` when the bytes from `i` are drawn `n` rows
high at column `x0` and row `y0`: the pixel is `c` columns right and `r` rows below the corner,
modulo 64 and 32, and takes bit `7 - c` of the byte at `i + r` (44_display.md R161 to R163). -/
def spriteBit (m : Memory) (i : Addr) (x0 y0 n : Nat) (px : Col) (py : Row) : Bool :=
  let c := (px.val + 64 - x0 % 64) % 64
  let r := (py.val + 32 - y0 % 32) % 32
  decide (c < 8) && decide (r < n) && (m.read (i + BitVec.ofNat 12 r)).getLsbD (7 - c)

/-- The sprite bit of `DRW Vx,Vy,N` in a state (R161). -/
def State.spriteAt (s : State) (x y : Reg) (n : Nat) (px : Col) (py : Row) : Bool :=
  spriteBit s.mem s.i (s.getV x).toNat (s.getV y).toNat n px py

/-- The outcome of a run whose state, where it answers one, is changed by `f`. -/
def mapNext (f : State → State) : Result → Result
  | .next t => .next (f t)
  | .fault r => .fault r
  | .refused r => .refused r

end Sys2Proof.Machine

namespace Sys2Proof

/-- The instructions whose effect on `pc` is their own: the rows of the table of R88 above "every
other instruction" (40_dispatcher_step.md R88). -/
def Instr.movesPc : Instr → Bool
  | .ret | .jpNNN _ | .callNNN _ | .jpV0NNN _ => true
  | .seVxNN _ _ | .sneVxNN _ _ | .seVxVy _ _ | .sneVxVy _ _ | .skpVx _ | .sknpVx _ => true
  | .ldVxK _ => true
  | .cls | .ldVxNN _ _ | .addVxNN _ _ | .ldVxVy _ _ | .orVxVy _ _ | .andVxVy _ _ => false
  | .xorVxVy _ _ | .addVxVy _ _ | .subVxVy _ _ | .shrVx _ _ | .subnVxVy _ _ | .shlVx _ _ => false
  | .ldINNN _ | .rndVxNN _ _ | .drwVxVyN _ _ _ | .ldVxDT _ | .ldDTVx _ | .ldSTVx _ => false
  | .addIVx _ | .ldFVx _ | .ldBVx _ | .ldAtIVx _ | .ldVxAtI _ => false

/-- The instructions that write `VF` as a side effect: the table of 10_state.md R13. -/
def Instr.writesFlag : Instr → Bool
  | .addVxVy _ _ | .subVxVy _ _ | .shrVx _ _ | .subnVxVy _ _ | .shlVx _ _ => true
  | .addIVx _ | .drwVxVyN _ _ _ => true
  | .cls | .ret | .jpNNN _ | .callNNN _ | .seVxNN _ _ | .sneVxNN _ _ | .seVxVy _ _ => false
  | .ldVxNN _ _ | .addVxNN _ _ | .ldVxVy _ _ | .orVxVy _ _ | .andVxVy _ _ | .xorVxVy _ _ => false
  | .sneVxVy _ _ | .ldINNN _ | .jpV0NNN _ | .rndVxNN _ _ | .skpVx _ | .sknpVx _ => false
  | .ldVxDT _ | .ldVxK _ | .ldDTVx _ | .ldSTVx _ | .ldFVx _ | .ldBVx _ => false
  | .ldAtIVx _ | .ldVxAtI _ => false

/-- Register 15 is an explicit destination of the instruction: its field X is 0xF and X is
written (10_state.md R13). -/
def Instr.destIsVF : Instr → Bool
  | .ldVxNN x _ | .addVxNN x _ | .rndVxNN x _ => x = 15
  | .ldVxVy x _ | .orVxVy x _ | .andVxVy x _ | .xorVxVy x _ => x = 15
  | .addVxVy x _ | .subVxVy x _ | .shrVx x _ | .subnVxVy x _ | .shlVx x _ => x = 15
  | .ldVxDT x | .ldVxK x | .ldVxAtI x => x = 15
  | .cls | .ret | .jpNNN _ | .callNNN _ | .seVxNN _ _ | .sneVxNN _ _ | .seVxVy _ _ => false
  | .sneVxVy _ _ | .ldINNN _ | .jpV0NNN _ | .drwVxVyN _ _ _ | .skpVx _ | .sknpVx _ => false
  | .ldDTVx _ | .ldSTVx _ | .addIVx _ | .ldFVx _ | .ldBVx _ | .ldAtIVx _ => false

end Sys2Proof
end

