-- ==== Sys2Proof/Certificates/Slice0/Obligations.lean ====
section
/-! DEFINITION. The statements for the provers, each from a numbered rule of spec/. -/

open Sys2Proof Sys2Proof.Machine

/-! ### Encoding and decoding (30_encoding.md) -/

/-- Words written out from 30_encoding.md R66 and 95_test_vectors.md 2.1, one or more for each
format, decode to their instruction, and unknown ones to none.  The bit patterns are the
spec's own (general knowledge; log entries 5 and 6). -/
def Obligations.WrittenWordsDecodeAsTheTableSays : Prop :=
  decodeWord 0x00E0 = .instr .cls ∧ decodeWord 0x00EE = .instr .ret ∧
  decodeWord 0x2ABC = .instr (.callNNN 0xABC) ∧ decodeWord 0x600A = .instr (.ldVxNN 0 0x0A) ∧
  decodeWord 0x7005 = .instr (.addVxNN 0 0x05) ∧ decodeWord 0x8127 = .instr (.subnVxVy 1 2) ∧
  decodeWord 0x812E = .instr (.shlVx 1 2) ∧ decodeWord 0x9120 = .instr (.sneVxVy 1 2) ∧
  decodeWord 0xD12A = .instr (.drwVxVyN 1 2 10) ∧ decodeWord 0xE1A1 = .instr (.sknpVx 1) ∧
  decodeWord 0xF10A = .instr (.ldVxK 1) ∧ decodeWord 0xFF65 = .instr (.ldVxAtI 15) ∧
  decodeWord 0x0000 = .unknown 0x0000 ∧ decodeWord 0x01E0 = .unknown 0x01E0 ∧
  decodeWord 0x5121 = .unknown 0x5121 ∧ decodeWord 0x812F = .unknown 0x812F

/-- Decoding the word of a well-formed instruction gives it back, with every operand (R62 to R66).
The bit patterns are the spec's own (log entry 5). -/
def Obligations.DecodeOfEncodeIsTheInstruction : Prop :=
  ∀ i : Instr, i.wellFormed = true → decodeWord (encodeWord i) = .instr i

/-- The converse: a word that decodes to an instruction is that instruction's word, and the
instruction is well formed; so no bit of a valid word is dropped (R66, R68).  R68 says that `SHR` and
`SHL` ignore the field Y: that it comes back rests on the model's syntax, which keeps it (DESIGN
CHOICE, log entry 22).  The fixed bits are decision D18 (log entry 6), the bit patterns the spec's own
(log entry 5). -/
def Obligations.EncodeOfDecodeIsTheWord : Prop :=
  ∀ (w : Opcode) (i : Instr), decodeWord w = .instr i → i.wellFormed = true ∧ encodeWord i = w

/-- Over all 65536 words: a word decodes to an instruction exactly when some row of the opcode map
of R66 holds of it, the row of the instruction it decodes to holds, and otherwise it decodes to
`Unknown` with the word itself (R65 to R67; the fixed bits are decision D18, log entry 6). -/
def Obligations.WordDecodesExactlyWhereARowHolds : Prop :=
  ∀ w : Opcode,
    ((∃ i, decodeWord w = .instr i) ↔ ∃ r ∈ opcodeMap, r.holds w = true) ∧
    (∀ i, decodeWord w = .instr i → i.row.holds w = true) ∧
    ((¬ ∃ r ∈ opcodeMap, r.holds w = true) → decodeWord w = .unknown w)

/-- "The rows of rule R66 are pairwise disjoint, so the order of tests does not matter" (R65, a
derivation of the spec's). -/
def Obligations.OpcodeMapRowsAreDisjoint : Prop :=
  ∀ w : Opcode, ∀ r ∈ opcodeMap, ∀ r' ∈ opcodeMap, r.holds w = true → r'.holds w = true → r = r'

/-! ### The step (40_dispatcher_step.md) -/

/-- Where the two bytes at `pc` and `(pc + 1) mod 4096`, high byte first, decode to an instruction,
the step is that instruction's execution, and the instruction is well formed (R80 to R83;
20_memory.md R41).  The wrap is decision D1 (log entry 1). -/
def Obligations.StepRunsTheDecodedInstruction : Prop :=
  ∀ (s : State) (i : Instr), decodeBytes (s.mem.read s.pc) (s.mem.read (s.pc + 1)) = .instr i →
    step s = exec i s ∧ i.wellFormed = true

/-- Where they do not, the step answers a state: two bytes on, both timers ticked, `WAIT` 0, the
report the word and its address, and nothing else changed (R91; decision D17, log entry 12). -/
def Obligations.StepSkipsAndReportsAnUnknownWord : Prop :=
  ∀ (s : State) (w : Opcode), decodeBytes (s.mem.read s.pc) (s.mem.read (s.pc + 1)) = .unknown w →
    ∃ t, step s = .next t ∧ PcMoves 2 s t ∧ Ticks s t ∧ t.wait = false ∧
      t.report = .unknownOpcode w s.pc ∧ FrameBut {} s t

/-- A step never refuses, and it stops only for the two stack conditions, with the word and the
address: `CALL` with a full stack, `RET` with an empty one (60_exceptions.md R220, R226).  That the
step then changes nothing is decision D8 (log entry 13). -/
def Obligations.StepStopsOnlyOnAStackFault : Prop :=
  ∀ s : State,
    (∀ r, step s ≠ .refused r) ∧
    (∀ f, step s = .fault f ↔
      (∃ nnn, s.fetchDecoded = .instr (.callNNN nnn) ∧ s.sp.val = 16 ∧ f = .stackOverflow s.fetch s.pc) ∨
      (s.fetchDecoded = .instr .ret ∧ s.sp.val = 0 ∧ f = .stackUnderflow s.fetch s.pc))

/-- "no rule of the dispatcher reads it: every step fetches and decodes afresh, so the behaviour of
the next step never depends on `WAIT`" (10_state.md R24, decision D39, log entry 19); nor on the
model's record of the last report (log entry 15). -/
def Obligations.NoStepReadsWaitOrTheReport : Prop :=
  ∀ (s : State) (b : Bool) (c : Condition), step { s with wait := b, report := c } = step s

/-- The random input is read by `RND` alone: with another input, every other instruction does the
same and leaves that input where it is (10_state.md R30, decision D23, log entry 14). -/
def Obligations.OnlyRandomReadsTheRandomInput : Prop :=
  ∀ (i : Instr) (s : State) (r : Option Byte) (d : Nat), (∀ x nn, i ≠ .rndVxNN x nn) →
    exec i { s with rndIn := r, draws := d } =
      mapNext (fun t => { t with rndIn := r, draws := d }) (exec i s)

/-- "No instruction reads `ST`" (45_input_timers_random.md R185): with another value in it, the
next state differs in `ST` and `SOUND_PENDING` alone. -/
def Obligations.NoInstructionReadsTheSoundTimer : Prop :=
  ∀ (i : Instr) (s t : State) (b : Byte), exec i s = .next t →
    ∃ t', exec i { s with st := b } = .next t' ∧
      { t' with st := t.st, soundPending := t.soundPending } = t

/-! ### What every completed instruction does, over all 34 -/

/-- "After every executed instruction, both timers decrement by 1 if currently nonzero; no effect
at 0. Sound timer reaching exactly 1 before decrement signals \"emit beep\"" (R89), for every
instruction but the two that set a timer, and but for the stall (R90, decision D16, log entry 11). -/
def Obligations.EveryCompletedInstructionTicksBothTimers : Prop :=
  ∀ (i : Instr) (s t : State), exec i s = .next t →
    (∀ x, i ≠ .ldDTVx x) → (∀ x, i ≠ .ldSTVx x) →
    (∀ x, i = .ldVxK x → ∃ k, s.pressed k = true) → Ticks s t

/-- The last row of the table of R88: an instruction that no other row names moves `pc` two bytes on.
The wrap is decision D1 (log entry 1). -/
def Obligations.EveryOtherInstructionAdvancesByTwo : Prop :=
  ∀ (i : Instr) (s t : State), i.movesPc = false → exec i s = .next t → PcMoves 2 s t

/-- `WAIT` after an instruction that answers a state is 1 exactly where it is a key-wait with every
key released, and the report is `Ok` (R80, R92; decision D39, log entries 15 and 19). -/
def Obligations.WaitIsSetExactlyByAStall : Prop :=
  ∀ (i : Instr) (s t : State), exec i s = .next t →
    (t.wait = true ↔ (∃ x, i = .ldVxK x) ∧ ∀ k, s.pressed k = false) ∧ t.report = .ok

/-- The table of 10_state.md R13: "no other instruction writes `VF` except through an explicit
destination field X = 0xF". -/
def Obligations.OnlyTheFlagInstructionsWriteTheFlag : Prop :=
  ∀ (i : Instr) (s t : State), i.writesFlag = false → i.destIsVF = false → exec i s = .next t →
    t.getV 15 = s.getV 15

/-- No step writes the key latch (10_state.md R21), none clears `DRAW_PENDING` or `SOUND_PENDING`, and
`DRAW_PENDING` is set by `CLS` and `DRW` alone (R22, R23; that these two set it even where no pixel
changes is decision D34, log entry 9). -/
def Obligations.StepsKeepTheLatchAndNeverClearAPendingFlag : Prop :=
  ∀ s t : State, step s = .next t →
    t.key = s.key ∧ (s.soundPending = true → t.soundPending = true) ∧
    (t.drawPending = true ↔ s.drawPending = true ∨ s.fetchDecoded = .instr .cls ∨
      ∃ x y n, s.fetchDecoded = .instr (.drwVxVyN x y n))

/-- The "written by" column of the table of 10_state.md R10 for memory, the stack and the display: an
instruction other than `LD B,Vx` and `LD [I],Vx` leaves memory as it is, one other than `CALL` and
`RET` the stack, one other than `CLS` and `DRW` the display. -/
def Obligations.OnlyTheirWritersChangeMemoryStackAndDisplay : Prop :=
  ∀ (i : Instr) (s t : State), exec i s = .next t →
    ((∀ x, i ≠ .ldBVx x) → (∀ x, i ≠ .ldAtIVx x) → t.mem = s.mem) ∧
    ((∀ nnn, i ≠ .callNNN nnn) → i ≠ .ret → t.sp = s.sp ∧ t.stack = s.stack) ∧
    (i ≠ .cls → (∀ x y n, i ≠ .drwVxVyN x y n) → t.disp = s.disp)

/-! ### Control transfer (41_control_transfer.md) -/

/-- `RET` (R100): pops the most recent entry and goes two bytes past it, the entry staying where it
is.  The wrap is decision D1 (log entry 1). -/
def Obligations.ReturnPopsAndGoesPastTheCall : Prop :=
  ∀ (s : State) (k : Fin 16), s.sp.val = k.val + 1 →
    ∃ t, exec .ret s = .next t ∧ t.sp.val = k.val ∧ t.stack = s.stack ∧
      t.pc.toNat = (s.stack[k].toNat + 2) % 4096 ∧ FrameBut { stack := true } s t

/-- `RET` with an empty stack raises `StackUnderflow`, `CALL` with a full one `StackOverflow`, each with
its word and its address (R100, R102; 60_exceptions.md R221, R222).  That nothing changes is
decision D8 (log entry 13). -/
def Obligations.StackFaultsAreRaisedWithWordAndAddress : Prop :=
  (∀ s : State, s.sp.val = 0 → exec .ret s = .fault (.stackUnderflow 0x00EE s.pc)) ∧
  ∀ (nnn : Addr) (s : State), s.sp.val = 16 →
    exec (.callNNN nnn) s = .fault (.stackOverflow (0x2#4 ++ nnn) s.pc)

/-- `JP NNN` (R101): "pc = NNN (no further advance)", and nothing else. -/
def Obligations.JumpGoesToItsTarget : Prop :=
  ∀ (nnn : Addr) (s : State),
    ∃ t, exec (.jpNNN nnn) s = .next t ∧ t.pc = nnn ∧ FrameBut {} s t

/-- `CALL NNN` (R102): pushes its own address on the first free entry, leaves every other entry, and
jumps. -/
def Obligations.CallPushesItsAddressAndJumps : Prop :=
  ∀ (nnn : Addr) (s : State) (k : Fin 16), s.sp.val = k.val →
    ∃ t, exec (.callNNN nnn) s = .next t ∧ t.pc = nnn ∧ t.sp.val = k.val + 1 ∧
      t.stack[k] = s.pc ∧ (∀ j : Fin 16, j ≠ k → t.stack[j] = s.stack[j]) ∧
      FrameBut { stack := true } s t

/-- `JP V0,NNN` (R103): the sum of the address and register 0, modulo 4096 (decision D1, log entry 1). -/
def Obligations.OffsetJumpAddsRegisterZero : Prop :=
  ∀ (nnn : Addr) (s : State),
    ∃ t, exec (.jpV0NNN nnn) s = .next t ∧ t.pc.toNat = (nnn.toNat + (s.getV 0).toNat) % 4096 ∧
      FrameBut {} s t

/-- The four skips on registers and immediates (R104 to R107): four bytes on where the condition holds,
two where it does not, and nothing else.  The wrap is decision D1 (log entry 1). -/
def Obligations.SkipsMoveFourOrTwoBytes : Prop :=
  ∀ (x y : Reg) (nn : Byte) (s : State),
    (∃ t, exec (.seVxNN x nn) s = .next t ∧ PcMoves (if s.getV x = nn then 4 else 2) s t ∧
      FrameBut {} s t) ∧
    (∃ t, exec (.sneVxNN x nn) s = .next t ∧ PcMoves (if s.getV x ≠ nn then 4 else 2) s t ∧
      FrameBut {} s t) ∧
    (∃ t, exec (.seVxVy x y) s = .next t ∧ PcMoves (if s.getV x = s.getV y then 4 else 2) s t ∧
      FrameBut {} s t) ∧
    (∃ t, exec (.sneVxVy x y) s = .next t ∧ PcMoves (if s.getV x ≠ s.getV y then 4 else 2) s t ∧
      FrameBut {} s t)

/-- "after both steps, program counter equals the address immediately following the call
instruction" (95_test_vectors.md S7; R102): a call, then a return, from any state with a free
entry, go two bytes past the call with the stack pointer and every register back.  The wrap is
decision D1 (log entry 1). -/
def Obligations.CallThenReturnGoesPastTheCall : Prop :=
  ∀ (nnn : Addr) (s : State), s.sp.val < 16 →
    ∃ t u, exec (.callNNN nnn) s = .next t ∧ exec .ret t = .next u ∧
      PcMoves 2 s u ∧ u.sp = s.sp ∧ (∀ r, u.getV r = s.getV r) ∧ u.mem = s.mem

/-! ### Immediates and the ALU (42_immediate_and_alu.md) -/

/-- `LD Vx,NN` (R120): the register takes the byte, and nothing else changes; register 15 is a
register like any other. -/
def Obligations.LoadImmediateWritesTheRegister : Prop :=
  ∀ (x : Reg) (nn : Byte) (s : State),
    ∃ t, exec (.ldVxNN x nn) s = .next t ∧ t.getV x = nn ∧ FrameBut { regs := [x] } s t

/-- `ADD Vx,NN` (R121): the sum modulo 256, with no flag. -/
def Obligations.AddImmediateWrapsWithoutAFlag : Prop :=
  ∀ (x : Reg) (nn : Byte) (s : State),
    ∃ t, exec (.addVxNN x nn) s = .next t ∧
      (t.getV x).toNat = ((s.getV x).toNat + nn.toNat) % 256 ∧ FrameBut { regs := [x] } s t

/-- `LD Vx,Vy`, `OR`, `AND`, `XOR` (R122 to R125): the copy and the three bitwise results, with no
flag effect. -/
def Obligations.CopyAndLogicWriteTheResultAlone : Prop :=
  ∀ (x y : Reg) (s : State),
    (∃ t, exec (.ldVxVy x y) s = .next t ∧ t.getV x = s.getV y ∧ FrameBut { regs := [x] } s t) ∧
    (∃ t, exec (.orVxVy x y) s = .next t ∧ t.getV x = s.getV x ||| s.getV y ∧
      FrameBut { regs := [x] } s t) ∧
    (∃ t, exec (.andVxVy x y) s = .next t ∧ t.getV x = s.getV x &&& s.getV y ∧
      FrameBut { regs := [x] } s t) ∧
    (∃ t, exec (.xorVxVy x y) s = .next t ∧ t.getV x = s.getV x ^^^ s.getV y ∧
      FrameBut { regs := [x] } s t)

/-- `ADD Vx,Vy` (R126): the sum modulo 256, and register 15 is 1 exactly where it exceeds 255.  That
the flag is what stays where the destination is register 15 is decision D9 (log entry 7). -/
def Obligations.AddRegistersWritesSumThenCarry : Prop :=
  ∀ (x y : Reg) (s : State),
    ∃ t, exec (.addVxVy x y) s = .next t ∧
      (x ≠ 15 → (t.getV x).toNat = ((s.getV x).toNat + (s.getV y).toNat) % 256) ∧
      (t.getV 15).toNat = (if 255 < (s.getV x).toNat + (s.getV y).toNat then 1 else 0) ∧
      FrameBut { regs := [x, 15] } s t

/-- `SUB` and `SUBN` (R127, R129): the difference modulo 256, and register 15 is 1 exactly where the
minuend is at least the subtrahend.  The case of destination 15 is decision D9 (log entry 7). -/
def Obligations.SubtractionsWriteDifferenceThenNoBorrow : Prop :=
  ∀ (x y : Reg) (s : State),
    (∃ t, exec (.subVxVy x y) s = .next t ∧
      (x ≠ 15 → (t.getV x).toNat = ((s.getV x).toNat + 256 - (s.getV y).toNat) % 256) ∧
      (t.getV 15).toNat = (if (s.getV y).toNat ≤ (s.getV x).toNat then 1 else 0) ∧
      FrameBut { regs := [x, 15] } s t) ∧
    (∃ t, exec (.subnVxVy x y) s = .next t ∧
      (x ≠ 15 → (t.getV x).toNat = ((s.getV y).toNat + 256 - (s.getV x).toNat) % 256) ∧
      (t.getV 15).toNat = (if (s.getV x).toNat ≤ (s.getV y).toNat then 1 else 0) ∧
      FrameBut { regs := [x, 15] } s t)

/-- `SHR` and `SHL` (R128, R130): register X moved one place, whatever Y is, and register 15 the bit
shifted out.  The source is decision D10 (log entry 8), destination 15 decision D9 (log entry 7). -/
def Obligations.ShiftsMoveRegisterXByOnePlace : Prop :=
  ∀ (x y : Reg) (s : State),
    (∃ t, exec (.shrVx x y) s = .next t ∧
      (x ≠ 15 → (t.getV x).toNat = (s.getV x).toNat / 2) ∧
      (t.getV 15).toNat = (s.getV x).toNat % 2 ∧ FrameBut { regs := [x, 15] } s t) ∧
    (∃ t, exec (.shlVx x y) s = .next t ∧
      (x ≠ 15 → (t.getV x).toNat = 2 * (s.getV x).toNat % 256) ∧
      (t.getV 15).toNat = (s.getV x).toNat / 128 ∧ FrameBut { regs := [x, 15] } s t)

/-! ### Index and memory (43_index_and_memory.md)

The premise `s.mem.wf` is the model's canonical form of a memory (DEDUCED, log entry 16): reset has it, a
step keeps it, and so does `loadProgram`. -/

/-- `LD I,NNN` (R140). -/
def Obligations.LoadIndexWritesTheIndex : Prop :=
  ∀ (nnn : Addr) (s : State),
    ∃ t, exec (.ldINNN nnn) s = .next t ∧ t.i = nnn ∧ FrameBut { index := true } s t

/-- `ADD I,Vx` (R141): the sum modulo 4096, and register 15 is 1 exactly where it exceeds 4095
(decisions D2 and D3, log entries 1 and 2). -/
def Obligations.AddToIndexWrapsAndFlagsOverflow : Prop :=
  ∀ (x : Reg) (s : State),
    ∃ t, exec (.addIVx x) s = .next t ∧
      t.i.toNat = (s.i.toNat + (s.getV x).toNat) % 4096 ∧
      (t.getV 15).toNat = (if 4095 < s.i.toNat + (s.getV x).toNat then 1 else 0) ∧
      FrameBut { regs := [15], index := true } s t

/-- `LD F,Vx` (R142): five times the low nibble (decision D14, log entry 10). -/
def Obligations.LoadFontPointsAtTheDigit : Prop :=
  ∀ (x : Reg) (s : State),
    ∃ t, exec (.ldFVx x) s = .next t ∧ t.i.toNat = 5 * ((s.getV x).toNat % 16) ∧
      FrameBut { index := true } s t

/-- `LD B,Vx` (R143): hundreds, tens and units at `I`, `I + 1`, `I + 2`, and every other byte as
before.  The wrap modulo 4096 is decision D5 (log entry 1). -/
def Obligations.DecimalDigitsGoToThreeBytesAtIndex : Prop :=
  ∀ (x : Reg) (s : State), s.mem.wf →
    ∃ t, exec (.ldBVx x) s = .next t ∧
      (t.mem.read s.i).toNat = (s.getV x).toNat / 100 ∧
      (t.mem.read (s.i + 1)).toNat = (s.getV x).toNat / 10 % 10 ∧
      (t.mem.read (s.i + 2)).toNat = (s.getV x).toNat % 10 ∧
      FrameBut { bytesAtI := 3 } s t

/-- `LD [I],Vx` (R144): register `k` at `I + k` for every `k` up to X, every other byte as before, and
`I` moves past them with no flag (decisions D4 and D5, log entries 1 and 2). -/
def Obligations.BlockStoreWritesRegistersUpToX : Prop :=
  ∀ (x : Reg) (s : State), s.mem.wf →
    ∃ t, exec (.ldAtIVx x) s = .next t ∧
      (∀ k : Reg, k ≤ x → t.mem.read (s.i + BitVec.ofNat 12 k.val) = s.getV k) ∧
      t.i.toNat = (s.i.toNat + x.val + 1) % 4096 ∧
      FrameBut { index := true, bytesAtI := x.val + 1 } s t

/-- `LD Vx,[I]` (R145): register `k` takes the byte at `I + k` for every `k` up to X, every other
register as before, and `I` moves past them with no flag (decisions D4 and D5, log entries 1
and 2). -/
def Obligations.BlockLoadFillsRegistersUpToX : Prop :=
  ∀ (x : Reg) (s : State),
    ∃ t, exec (.ldVxAtI x) s = .next t ∧
      (∀ k : Reg, k ≤ x → t.getV k = s.mem.read (s.i + BitVec.ofNat 12 k.val)) ∧
      (∀ k : Reg, x < k → t.getV k = s.getV k) ∧
      t.i.toNat = (s.i.toNat + x.val + 1) % 4096 ∧
      FrameBut { regs := List.finRange 16, index := true } s t

/-- A block store, then a block load from the same address into any registers, gives registers 0 to
X back and leaves the others (R144, R145; decision D5, log entry 1). -/
def Obligations.BlockStoreThenLoadRestoresTheRegisters : Prop :=
  ∀ (x : Reg) (s : State) (w : Vector Byte 16), s.mem.wf →
    ∃ t u, exec (.ldAtIVx x) s = .next t ∧
      exec (.ldVxAtI x) { t with i := s.i, v := w } = .next u ∧
      (∀ k : Reg, k ≤ x → u.getV k = s.getV k) ∧ ∀ k : Reg, x < k → u.getV k = w[k]

/-- "self-modifying code works and needs nothing" (20_memory.md R53): the two bytes a block store
leaves where `pc` then stands are the word the very next step fetches, and it runs what they
decode to. -/
def Obligations.TheNextStepRunsWhatAStoreWrote : Prop :=
  ∀ (x : Reg) (s t : State) (i : Instr), s.mem.wf → 1 ≤ x.val → exec (.ldAtIVx x) s = .next t →
    t.pc = s.i → decodeBytes (s.getV 0) (s.getV 1) = .instr i → step t = exec i t

/-- A read after a store (20_memory.md R45, "a read returns the last byte written to that address"):
in a canonical memory the address reads as stored and every other as before, and the memory
stays canonical.  The canonical form is the model's own representation and no rule's (DEDUCED, log
entry 16). -/
def Obligations.AReadReturnsTheLastByteWritten : Prop :=
  ∀ (m : Memory) (a c : Addr) (b : Byte), m.wf →
    (m.write a b).read c = (if c = a then b else m.read c) ∧ (m.write a b).wf

/-! ### The display (44_display.md) -/

/-- `CLS` (R160): every pixel 0 and `DRAW_PENDING` set; no register changes. -/
def Obligations.ClearBlanksEveryPixel : Prop :=
  ∀ s : State,
    ∃ t, exec .cls s = .next t ∧ (∀ px py, t.disp.get px py = false) ∧ t.drawPending = true ∧
      FrameBut { display := true } s t

/-- `DRW Vx,Vy,N` (R161 to R164): every pixel is XORed with the sprite bit that falls on it, register
15 is 1 exactly where a set pixel is cleared, `DRAW_PENDING` is set, and `I` and memory stay.
The wrap, the bit order and the case N = 0 are decisions D11, D12 and D32 (log entry 9). -/
def Obligations.DrawXorsTheSpriteAndFlagsCollision : Prop :=
  ∀ (x y : Reg) (n : Nat) (s : State), n < 16 →
    ∃ t, exec (.drwVxVyN x y n) s = .next t ∧
      (∀ px py, t.disp.get px py = (s.disp.get px py ^^ s.spriteAt x y n px py)) ∧
      ((t.getV 15).toNat = 1 ↔ ∃ px py, s.disp.get px py = true ∧ t.disp.get px py = false) ∧
      (t.getV 15).toNat ≤ 1 ∧ t.drawPending = true ∧
      FrameBut { regs := [15], display := true } s t

/-- The double draw (R165): the identical sprite drawn twice at the same coordinates restores the
display, and the second draw collides exactly where some sprite bit of 1 fell on a pixel that
was 0 before the first.  "At the same coordinates" is the premise that the first draw leaves
registers X and Y: it fails only where X or Y is 15 and that draw changes `VF`.  That the restoration holds always is the spec's derivation; the wrap and
the bit order are decisions D11 and D12 (log entry 9). -/
def Obligations.DrawingTwiceRestoresTheDisplay : Prop :=
  ∀ (x y : Reg) (n : Nat) (s t : State), n < 16 → exec (.drwVxVyN x y n) s = .next t →
    t.getV x = s.getV x → t.getV y = s.getV y →
    ∃ u, exec (.drwVxVyN x y n) t = .next u ∧ u.disp = s.disp ∧
      ((u.getV 15).toNat = 1 ↔ ∃ px py, s.spriteAt x y n px py = true ∧ s.disp.get px py = false)

/-! ### Keys, timers, random (45_input_timers_random.md) -/

/-- `SKP` and `SKNP` (R180, R181): the key named by the low nibble of the register (decision D13, log
entry 10), four bytes on or two, and nothing else.  The wrap is decision D1 (log entry 1). -/
def Obligations.KeySkipsTestTheLatch : Prop :=
  ∀ (x : Reg) (k : KeyCode) (s : State), (s.getV x).toNat % 16 = k.val →
    (∃ t, exec (.skpVx x) s = .next t ∧ PcMoves (if s.pressed k = true then 4 else 2) s t ∧
      FrameBut {} s t) ∧
    (∃ t, exec (.sknpVx x) s = .next t ∧ PcMoves (if s.pressed k = false then 4 else 2) s t ∧
      FrameBut {} s t)

/-- `LD Vx,K` with every key released (R182, R90): `WAIT` is set and nothing else changes, the timers
among it (decision D16, log entry 11). -/
def Obligations.KeyWaitStallsWithoutAKey : Prop :=
  ∀ (x : Reg) (s : State), (∀ k, s.pressed k = false) →
    exec (.ldVxK x) s = .next { s with wait := true, report := .ok }

/-- `LD Vx,K` with a key pressed (R182): the lowest pressed key's code, two bytes on, `WAIT` 0
(decision D15, log entry 11). -/
def Obligations.KeyWaitStoresTheLowestKey : Prop :=
  ∀ (x : Reg) (k : KeyCode) (s : State), s.pressed k = true → (∀ j < k, s.pressed j = false) →
    ∃ t, exec (.ldVxK x) s = .next t ∧ (t.getV x).toNat = k.val ∧ PcMoves 2 s t ∧
      t.wait = false ∧ FrameBut { regs := [x] } s t

/-- "after `pressKey(7)` the next step" completes (R182, R206): any number of stalls, then a press,
then the instruction stores that key's code and goes on. -/
def Obligations.APressEndsTheKeyWait : Prop :=
  ∀ (x : Reg) (k : KeyCode) (s : State), (∀ j, s.pressed j = false) →
    ∃ t u, exec (.ldVxK x) s = .next t ∧ exec (.ldVxK x) t = .next t ∧
      exec (.ldVxK x) (t.setKey k true) = .next u ∧
      (u.getV x).toNat = k.val ∧ PcMoves 2 s u ∧ u.wait = false

/-- `LD Vx,DT` (R183): the value before this step's tick, and two bytes on.  The wrap is decision D1
(log entry 1). -/
def Obligations.ReadDelayTimerBeforeTheTick : Prop :=
  ∀ (x : Reg) (s : State),
    ∃ t, exec (.ldVxDT x) s = .next t ∧ t.getV x = s.dt ∧ PcMoves 2 s t ∧
      FrameBut { regs := [x] } s t

/-- `LD DT,Vx` and `LD ST,Vx` (R184, R185): the timer is set, then the tick of the same step follows,
so it ends one below the register, and a sound timer set to 1 signals the beep in this very step.
The wrap of `pc` is decision D1 (log entry 1). -/
def Obligations.SettingATimerIsFollowedByTheTick : Prop :=
  ∀ (x : Reg) (s : State),
    (∃ t, exec (.ldDTVx x) s = .next t ∧ DelayTicksFrom (s.getV x) t ∧ SoundTicksFrom s.st s t ∧
      PcMoves 2 s t ∧ FrameBut {} s t) ∧
    (∃ t, exec (.ldSTVx x) s = .next t ∧ DelayTicksFrom s.dt t ∧ SoundTicksFrom (s.getV x) s t ∧
      PcMoves 2 s t ∧ FrameBut {} s t)

/-- `RND Vx,NN` (R186): the input of the step ANDed with the immediate, for every value of that input,
and where none is supplied for whatever the free value is (decision D23, log entry 14; the wrap of
`pc` is decision D1, log entry 1). -/
def Obligations.RandomIsTheInputAndTheImmediate : Prop :=
  ∀ (x : Reg) (nn : Byte) (s : State),
    ∃ t, exec (.rndVxNN x nn) s = .next t ∧ t.getV x = s.rnd &&& nn ∧
      (∀ b, s.rndIn = some b → t.getV x = b &&& nn) ∧ t.getV x &&& nn = t.getV x ∧
      PcMoves 2 s t ∧ FrameBut { regs := [x] } s t

/-! ### Reset and invariants (46_host_operations.md R201; 10_state.md R31) -/

/-- Every element after reset (R201, R250): the registers, `I`, `SP`, the stack, the timers, the
display, the latch and the flags 0, `pc` 512, the font in bytes 0 to 79 and 0 in every other.  The
80 bytes are those of the table of 20_memory.md R47, one digit a line.  The zeros are decision D20
(log entry 3), the font bytes D26 (PRESUMED, log entry 4). -/
def Obligations.ResetLeavesTheStatedState : Prop :=
  (∀ r, State.reset.getV r = 0) ∧ State.reset.i = 0 ∧ State.reset.pc.toNat = 512 ∧
  State.reset.sp.val = 0 ∧ (∀ k : Fin 16, State.reset.stack[k] = 0) ∧
  State.reset.dt = 0 ∧ State.reset.st = 0 ∧
  (∀ a : Addr, State.reset.mem.read a =
    List.getD
    ([0xF0, 0x90, 0x90, 0x90, 0xF0,
      0x20, 0x60, 0x20, 0x20, 0x70,
      0xF0, 0x10, 0xF0, 0x80, 0xF0,
      0xF0, 0x10, 0xF0, 0x10, 0xF0] ++
     [0x90, 0x90, 0xF0, 0x10, 0x10,
      0xF0, 0x80, 0xF0, 0x10, 0xF0,
      0xF0, 0x80, 0xF0, 0x90, 0xF0,
      0xF0, 0x10, 0x20, 0x40, 0x40] ++
     [0xF0, 0x90, 0xF0, 0x90, 0xF0,
      0xF0, 0x90, 0xF0, 0x10, 0xF0,
      0xF0, 0x90, 0xF0, 0x90, 0x90,
      0xE0, 0x90, 0xE0, 0x90, 0xE0] ++
     [0xF0, 0x80, 0x80, 0x80, 0xF0,
      0xE0, 0x90, 0x90, 0x90, 0xE0,
      0xF0, 0x80, 0xF0, 0x80, 0xF0,
      0xF0, 0x80, 0xF0, 0x80, 0x80] : List Byte)
    a.toNat 0) ∧
  (∀ px py, State.reset.disp.get px py = false) ∧ (∀ k, State.reset.pressed k = false) ∧
  State.reset.drawPending = false ∧ State.reset.soundPending = false ∧ State.reset.wait = false

/-- The invariants hold at reset: the memory is canonical, the model's own representation (DEDUCED, log
entry 16), and `WAIT` is honest: its value 0 is decision D20 (R201; log entry 3), its meaning decision
D39 (R24; log entry 19). -/
def Obligations.ResetMeetsTheInvariants : Prop := State.reset.Inv ∧ State.reset.WaitHonest

/-- From every state with a canonical memory, a step that answers a state gives one with a canonical
memory.  That every cell stays at an address below 4096 is what 10_state.md R31 and 20_memory.md R44
ask; that addresses rise and that no cell equals the reset contents is the model's own representation
(DEDUCED, log entry 16). -/
def Obligations.EveryStepKeepsTheMemoryCanonical : Prop :=
  ∀ s t : State, s.Inv → step s = .next t → t.Inv

/-- From every state in which `WAIT` is honest, a step gives one in which it is: `WAIT` "is 1 exactly
when the most recent non-fatal step was a stall of the key-wait instruction" (10_state.md R24,
decision D39, log entry 19), so the instruction at `pc` is that key-wait, and the keys are
released. -/
def Obligations.EveryStepKeepsWaitHonest : Prop :=
  ∀ s t : State, s.WaitHonest → step s = .next t → t.WaitHonest

/-! ### The driver's operations (46_host_operations.md) -/

/-- `initialize()` on any block gives the reset state with no fatal mark; before it, every other
operation is refused (R201, R212; the refusal is decision D21, log entry 20). -/
def Obligations.OnlyInitialiseIsAcceptedAtFirst : Prop :=
  (∀ b : Block, b.apply .init = .next (.ready .reset false, .done)) ∧
  ∀ op : DriverOp, op ≠ .init → Block.apply .uninitialised op = .refused .uninitialised

/-- `loadProgram(bytes)` (R203): a program that fits stands at 512 upwards and nothing else changes,
one that does not is a capacity error and changes nothing (decision D22, log entry 20).  Either way
the memory stays canonical, so a load carries that invariant on (10_state.md R31 speaks of every
host operation; the canonical form itself is DEDUCED, log entry 16). -/
def Obligations.LoadProgramIsAllOrNothing : Prop :=
  ∀ (s : State) (bytes : List Byte), s.mem.wf →
    (3584 < bytes.length → s.loadProgram bytes = (s, .capacityError)) ∧
    (bytes.length ≤ 3584 → ∃ t, s.loadProgram bytes = (t, .ok) ∧ { t with mem := s.mem } = s ∧ t.mem.wf ∧
      (∀ (k : Nat) (hk : k < bytes.length), t.mem.read (BitVec.ofNat 12 (512 + k)) = bytes[k]) ∧
      ∀ a : Addr, a.toNat < 512 ∨ 512 + bytes.length ≤ a.toNat → t.mem.read a = s.mem.read a)

/-- `pressKey` and `releaseKey` (R206, R207) write the one latch bit; a code outside 0 to 15 is refused
(decision D37, log entry 20). -/
def Obligations.KeyOperationsWriteOneLatchBit : Prop :=
  ∀ (s : State) (m : Bool) (code : Nat) (b : Bool),
    (16 ≤ code → Block.apply (.ready s m) (if b then .pressKey code else .releaseKey code) =
      .refused (.keyCodeOutOfRange code)) ∧
    (∀ h : code < 16, ∃ t,
      Block.apply (.ready s m) (if b then .pressKey code else .releaseKey code) =
        .next (.ready t m, .done) ∧
      (∀ k : KeyCode, t.pressed k = if k = ⟨code, h⟩ then b else s.pressed k) ∧
      { t with key := s.key } = s)

/-- `isSoundPending()` (R210): the bit as it was, then cleared, so a second call returns 0; nothing else
changes. -/
def Obligations.SoundPendingIsOneShot : Prop :=
  ∀ (s : State) (m : Bool), ∃ t,
    Block.apply (.ready s m) .isSoundPending = .next (.ready t m, .bit s.soundPending) ∧
    Block.apply (.ready t m) .isSoundPending = .next (.ready t m, .bit false) ∧
    { t with soundPending := s.soundPending } = s

/-- `consumeDisplayBuffer()` (R209): the 2048 pixels row by row, element `64 * y + x` the pixel `(x, y)`,
and `DRAW_PENDING` cleared, which `isDrawPending()` (R208) then shows.  The layout is decision D28
(log entry 20). -/
def Obligations.ConsumeReturnsTheSnapshotAndClearsTheFlag : Prop :=
  ∀ (s : State) (m : Bool), ∃ (t : State) (pixels : List Bool),
    Block.apply (.ready s m) .consumeDisplayBuffer = .next (.ready t m, .snapshot pixels) ∧
    pixels.length = 2048 ∧
    (∀ (x : Col) (y : Row), pixels[64 * y.val + x.val]? = some (s.disp.get x y)) ∧
    { t with drawPending := s.drawPending } = s ∧
    Block.apply (.ready t m) .isDrawPending = .next (.ready t m, .bit false)

/-- A fatal result repeats itself: the block is as it was but for the model's mark, whatever the random
input, and so the same operation gives the same result again (60_exceptions.md R228, a derivation
of the spec's; log entry 13). -/
def Obligations.AFatalResultRepeatsItself : Prop :=
  ∀ (s : State) (m : Bool) (b : Block) (c : Condition) (r r' : Byte),
    Block.apply (.ready s m) (.step r) = .next (b, .result c) → c.fatal = true →
    b = .ready s true ∧ Block.apply b (.step r') = .next (b, .result c)

/-- `step(rnd)` (R205): the driver's random byte is what `RND` ANDs, for every byte (R186). -/
def Obligations.TheDriversByteIsTheRandomInput : Prop :=
  ∀ (s : State) (m : Bool) (x : Reg) (nn rnd : Byte), s.fetchDecoded = .instr (.rndVxNN x nn) →
    ∃ t, Block.apply (.ready s m) (.step rnd) = .next (.ready t m, .result .ok) ∧
      t.getV x = rnd &&& nn
end

