-- ==== Sys2Proof/Laws/Decode.lean ====
section
/-! SUPPORT. The fields of a word built by one of the formats, and a word rebuilt from its fields:
what decoding an encoded instruction, and encoding a decoded one, rest on. -/

namespace Sys2Proof

/-! ### The fields of a built word -/

theorem extract_append_high {m n : Nat} (a : BitVec m) (b : BitVec n) :
    (a ++ b).extractLsb' n m = a := by
  ext k hk
  simp [BitVec.getLsbD_append, BitVec.getLsbD_eq_getElem hk]

theorem extract_append_low {m n s l : Nat} (a : BitVec m) (b : BitVec n) (h : s + l ≤ n) :
    (a ++ b).extractLsb' s l = b.extractLsb' s l := by
  ext k hk
  have : s + k < n := by omega
  simp [BitVec.getLsbD_append, this]

theorem extract_all {n : Nat} (b : BitVec n) : b.extractLsb' 0 n = b := by
  ext k hk
  simp

@[simp] theorem regOf_regBits (x : Reg) : regOf (regBits x) = x := rfl
@[simp] theorem regBits_regOf (b : BitVec 4) : regBits (regOf b) = b := rfl

@[simp] theorem opField_formatFA (c : BitVec 4) (a : Addr) : opField (formatFA c a) = c :=
  extract_append_high c a
@[simp] theorem nnnField_formatFA (c : BitVec 4) (a : Addr) : nnnField (formatFA c a) = a :=
  (extract_append_low c a (by omega)).trans (extract_all a)

@[simp] theorem opField_formatFXK (c : BitVec 4) (x : Reg) (k : Byte) : opField (formatFXK c x k) = c :=
  extract_append_high c _
@[simp] theorem xReg_formatFXK (c : BitVec 4) (x : Reg) (k : Byte) : xReg (formatFXK c x k) = x := by
  have : xField (formatFXK c x k) = regBits x :=
    (extract_append_low c (regBits x ++ k) (by omega)).trans (extract_append_high _ _)
  rw [xReg, this, regOf_regBits]
@[simp] theorem nnField_formatFXK (c : BitVec 4) (x : Reg) (k : Byte) : nnField (formatFXK c x k) = k :=
  (extract_append_low c (regBits x ++ k) (by omega)).trans
    ((extract_append_low _ _ (by omega)).trans (extract_all k))

@[simp] theorem opField_formatFXY (c : BitVec 4) (x y : Reg) (n : BitVec 4) :
    opField (formatFXY c x y n) = c := extract_append_high c _
@[simp] theorem xReg_formatFXY (c : BitVec 4) (x y : Reg) (n : BitVec 4) :
    xReg (formatFXY c x y n) = x := by
  have : xField (formatFXY c x y n) = regBits x :=
    (extract_append_low c (regBits x ++ (regBits y ++ n)) (by omega)).trans (extract_append_high _ _)
  rw [xReg, this, regOf_regBits]
@[simp] theorem yReg_formatFXY (c : BitVec 4) (x y : Reg) (n : BitVec 4) :
    yReg (formatFXY c x y n) = y := by
  have : yField (formatFXY c x y n) = regBits y :=
    (extract_append_low c (regBits x ++ (regBits y ++ n)) (by omega)).trans
      ((extract_append_low _ _ (by omega)).trans (extract_append_high _ _))
  rw [yReg, this, regOf_regBits]
@[simp] theorem nField_formatFXY (c : BitVec 4) (x y : Reg) (n : BitVec 4) :
    nField (formatFXY c x y n) = n :=
  (extract_append_low c (regBits x ++ (regBits y ++ n)) (by omega)).trans
    ((extract_append_low _ _ (by omega)).trans ((extract_append_low _ _ (by omega)).trans (extract_all n)))

/-! ### A word rebuilt from its fields -/

theorem append_of_extract {m n : Nat} (w : BitVec (m + n)) :
    w.extractLsb' n m ++ w.extractLsb' 0 n = w := by
  ext k hk
  rw [BitVec.getElem_append]
  split
  next h => simp [← BitVec.getLsbD_eq_getElem, h]
  next h =>
    have hm : k - n < m := by omega
    simp [← BitVec.getLsbD_eq_getElem, show n + (k - n) = k by omega, hm]

/-- `instr = OP : NNN`. -/
theorem rebuild_formatFA (w : Opcode) : formatFA (opField w) (nnnField w) = w :=
  append_of_extract (m := 4) (n := 12) w

theorem nnnField_split (w : Opcode) : xField w ++ nnField w = nnnField w := by
  ext k hk
  rw [BitVec.getElem_append]
  simp only [xField, nnField, nnnField, BitVec.getElem_extractLsb']
  split
  · rfl
  · rw [show 8 + (k - 8) = 0 + k by omega]

theorem nnField_split (w : Opcode) : yField w ++ nField w = nnField w := by
  ext k hk
  rw [BitVec.getElem_append]
  simp only [yField, nField, nnField, BitVec.getElem_extractLsb']
  split
  · rfl
  · rw [show 4 + (k - 4) = 0 + k by omega]

/-- `instr = OP : X : NN`. -/
theorem rebuild_formatFXK (w : Opcode) : formatFXK (opField w) (xReg w) (nnField w) = w := by
  have := rebuild_formatFA w
  rw [← nnnField_split] at this
  exact this

/-- `instr = OP : X : Y : N`. -/
theorem rebuild_formatFXY (w : Opcode) : formatFXY (opField w) (xReg w) (yReg w) (nField w) = w := by
  have := rebuild_formatFXK w
  rw [← nnField_split] at this
  exact this

/-! ### Bytes and words -/

@[simp] theorem wordOfBytes_bytes (w : Opcode) : wordOfBytes (hiByte w) (loByte w) = w :=
  append_of_extract (m := 8) (n := 8) w
@[simp] theorem hiByte_wordOfBytes (hi lo : Byte) : hiByte (wordOfBytes hi lo) = hi :=
  extract_append_high hi lo
@[simp] theorem loByte_wordOfBytes (hi lo : Byte) : loByte (wordOfBytes hi lo) = lo :=
  (extract_append_low hi lo (by omega)).trans (extract_all lo)

/-- The decoder on the bytes of a word is the decoder on the word. -/
theorem decodeBytes_eq (w : Opcode) : decodeBytes (hiByte w) (loByte w) = decodeWord w := by
  rw [decodeBytes, wordOfBytes_bytes]

end Sys2Proof
end

