-- ==== Sys2Proof/Laws/Display.lean ====
section
/-! SUPPORT. The laws of the display: a pixel after a write, what one sprite row and a whole
sprite leave in a pixel and in the collision flag, in closed form. -/

namespace Sys2Proof.Machine

@[simp] theorem blankDisplay_get (x : Col) (y : Row) : blankDisplay.get x y = false := by
  simp [Display.get, blankDisplay]

namespace Display

theorem get_put (d : Display) (x px : Col) (y py : Row) (b : Bool) :
    (d.put x y b).get px py = if px = x ∧ py = y then b else d.get px py := by
  unfold get put
  by_cases hx : px = x
  · subst hx
    by_cases hy : py = y
    · subst hy; simp
    · have : y.val ≠ py.val := fun e => hy (Fin.ext e.symm)
      simp [hy, this]
  · have : x.val ≠ px.val := fun e => hx (Fin.ext e.symm)
    simp [hx, this]

/-- Two displays are equal when every pixel is. -/
theorem ext_get {d e : Display} (h : ∀ x y, d.get x y = e.get x y) : d = e := by
  refine Vector.ext fun i hi => Vector.ext fun j hj => ?_
  exact h ⟨i, hi⟩ ⟨j, hj⟩

end Display

/-! ### One sprite row -/

/-- The sprite bit of a row byte that falls on column `px`, among the `n` low bits: the pixel is
`c` columns right of the corner and takes bit `7 - c`. -/
def rowBit (b : Byte) (x0 n : Nat) (px : Col) : Bool :=
  decide ((px.val + 64 - x0 % 64) % 64 < 8) && decide (7 - (px.val + 64 - x0 % 64) % 64 < n) &&
    b.getLsbD (7 - (px.val + 64 - x0 % 64) % 64)

theorem colOf_eq_iff (x0 c : Nat) (hc : c < 64) (px : Col) :
    px = colOf (x0 + c) ↔ (px.val + 64 - x0 % 64) % 64 = c := by
  have := px.isLt
  rw [colOf, Fin.ext_iff, Fin.val_ofNat]
  omega

theorem rowOf_eq_iff (y0 r : Nat) (hr : r < 32) (py : Row) :
    py = rowOf (y0 + r) ↔ (py.val + 32 - y0 % 32) % 32 = r := by
  have := py.isLt
  rw [rowOf, Fin.ext_iff, Fin.val_ofNat]
  omega

/-- A row toggles, in its display row alone, the columns where the byte has a bit of 1. -/
theorem get_blitRow (b : Byte) (x0 y n : Nat) (hn : n ≤ 8) (acc : Display × Bool) (px : Col) (py : Row) :
    (blitRow b x0 y n acc).1.get px py =
      (acc.1.get px py ^^ (decide (py = rowOf y) && rowBit b x0 n px)) := by
  induction n generalizing acc with
  | zero => simp [blitRow, rowBit]
  | succ n ih =>
    rw [blitRow, ih (by omega)]
    have key := colOf_eq_iff x0 (7 - n) (by omega) px
    by_cases hc : (px.val + 64 - x0 % 64) % 64 = 7 - n
    · have hlow : rowBit b x0 n px = false := by
        have : 7 - (7 - n) = n := by omega
        simp [rowBit, hc, this]
      have hbit : rowBit b x0 (n + 1) px = b.getLsbD n := by
        have h1 : 7 - (7 - n) = n := by omega
        have h2 : 7 - n < 8 := by omega
        simp [rowBit, hc, h1, h2]
      rw [hlow, hbit]
      by_cases hb : b.getLsbD n = true
      · by_cases hy : py = rowOf y
        · subst hy
          simp [hb, togglePixel, Display.get_put, key.2 hc]
        · simp [hb, togglePixel, Display.get_put, hy]
      · simp [hb]
    · have hsame : rowBit b x0 (n + 1) px = rowBit b x0 n px := by
        unfold rowBit
        by_cases h8 : (px.val + 64 - x0 % 64) % 64 < 8
        · have : (7 - (px.val + 64 - x0 % 64) % 64 < n + 1) ↔ (7 - (px.val + 64 - x0 % 64) % 64 < n) := by
            omega
          simp [this]
        · simp [h8]
      rw [hsame]
      by_cases hb : b.getLsbD n = true
      · have : ¬ (px = colOf (x0 + (7 - n)) ∧ py = rowOf y) := fun h => hc (key.1 h.1)
        simp [hb, togglePixel, Display.get_put, this]
      · simp [hb]

/-- A row reports a collision when one was noted before it, or a bit of 1 meets a set pixel. -/
theorem collision_blitRow (b : Byte) (x0 y n : Nat) (hn : n ≤ 8) (acc : Display × Bool) :
    (blitRow b x0 y n acc).2 = true ↔
      acc.2 = true ∨ ∃ px, rowBit b x0 n px = true ∧ acc.1.get px (rowOf y) = true := by
  induction n generalizing acc with
  | zero => simp [blitRow, rowBit]
  | succ n ih =>
    rw [blitRow, ih (by omega)]
    have key := fun px => colOf_eq_iff x0 (7 - n) (by omega) px
    have hlow : ∀ px, rowBit b x0 n px = true → rowBit b x0 (n + 1) px = true ∧
        px ≠ colOf (x0 + (7 - n)) := by
      intro px h
      simp only [rowBit, Bool.and_eq_true, decide_eq_true_eq] at h ⊢
      refine ⟨⟨⟨h.1.1, by omega⟩, h.2⟩, fun e => ?_⟩
      have := (key px).1 e
      omega
    have hhigh : ∀ px, rowBit b x0 (n + 1) px = true →
        rowBit b x0 n px = true ∨ (px = colOf (x0 + (7 - n)) ∧ b.getLsbD n = true) := by
      intro px h
      simp only [rowBit, Bool.and_eq_true, decide_eq_true_eq] at h ⊢
      by_cases hlt : 7 - (px.val + 64 - x0 % 64) % 64 < n
      · exact .inl ⟨⟨h.1.1, hlt⟩, h.2⟩
      · have e : (px.val + 64 - x0 % 64) % 64 = 7 - n := by omega
        refine .inr ⟨(key px).2 e, ?_⟩
        have h2 := h.2
        rw [e, show 7 - (7 - n) = n by omega] at h2
        exact h2
    have htop : b.getLsbD n = true → rowBit b x0 (n + 1) (colOf (x0 + (7 - n))) = true := by
      intro hb
      have e := (key _).1 rfl
      simp only [rowBit, e, Bool.and_eq_true, decide_eq_true_eq]
      refine ⟨⟨by omega, by omega⟩, ?_⟩
      rw [show 7 - (7 - n) = n by omega]; exact hb
    by_cases hb : b.getLsbD n = true
    · simp only [hb, if_true, togglePixel, Bool.or_eq_true]
      constructor
      · rintro ((h | h) | ⟨px, hpx, hg⟩)
        · exact .inl h
        · exact .inr ⟨_, htop hb, h⟩
        · have := hlow px hpx
          rw [Display.get_put, if_neg fun e => this.2 e.1] at hg
          exact .inr ⟨px, this.1, hg⟩
      · rintro (h | ⟨px, hpx, hg⟩)
        · exact .inl (.inl h)
        · rcases hhigh px hpx with h | ⟨rfl, -⟩
          · refine .inr ⟨px, h, ?_⟩
            rw [Display.get_put, if_neg fun e => (hlow px h).2 e.1]
            exact hg
          · exact .inl (.inr hg)
    · simp only [hb, Bool.false_eq_true, if_false]
      refine or_congr_right ⟨fun ⟨px, h, hg⟩ => ⟨px, (hlow px h).1, hg⟩, fun ⟨px, h, hg⟩ => ⟨px, ?_, hg⟩⟩
      rcases hhigh px h with h | ⟨-, hb'⟩
      · exact h
      · exact absurd hb' hb

/-! ### A whole sprite -/

/-- The sprite bit that falls on a pixel when the rows of a list are drawn from row `y`. -/
def rowsBit (x0 y : Nat) (rows : List Byte) (px : Col) (py : Row) : Bool :=
  let r := (py.val + 32 - y % 32) % 32
  decide (r < rows.length) && rowBit (rows.getD r 0) x0 8 px

theorem rowsBit_nil (x0 y : Nat) (px : Col) (py : Row) : rowsBit x0 y [] px py = false := by
  simp [rowsBit]

theorem rowsBit_cons (x0 y : Nat) (b : Byte) (bs : List Byte) (px : Col) (py : Row) :
    rowsBit x0 y (b :: bs) px py =
      if py = rowOf y then rowBit b x0 8 px else rowsBit x0 (y + 1) bs px py := by
  have key := rowOf_eq_iff y 0 (by omega) py
  rw [Nat.add_zero] at key
  have hp := py.isLt
  split
  next h => simp [rowsBit, key.1 h]
  next h =>
    have hne : (py.val + 32 - y % 32) % 32 ≠ 0 := fun e => h (key.2 e)
    obtain ⟨r, hr⟩ : ∃ r, (py.val + 32 - y % 32) % 32 = r + 1 := ⟨_, (Nat.succ_pred_eq_of_ne_zero hne).symm⟩
    have hr' : (py.val + 32 - (y + 1) % 32) % 32 = r := by omega
    simp [rowsBit, hr, hr']

/-- The row a list starts on is no row of the rest, where the list is at most 32 rows high. -/
theorem rowsBit_start (x0 y : Nat) (bs : List Byte) (hlen : bs.length < 32) (px : Col) :
    rowsBit x0 (y + 1) bs px (rowOf y) = false := by
  have : ((rowOf y).val + 32 - (y + 1) % 32) % 32 = 31 := by
    rw [rowOf, Fin.val_ofNat]; omega
  simp [rowsBit, this]
  omega

theorem get_blitRows (x0 y : Nat) (rows : List Byte) (hlen : rows.length ≤ 32) (acc : Display × Bool)
    (px : Col) (py : Row) :
    (blitRows x0 y rows acc).1.get px py = (acc.1.get px py ^^ rowsBit x0 y rows px py) := by
  induction rows generalizing y acc with
  | nil => simp [blitRows, rowsBit_nil]
  | cons b bs ih =>
    simp only [List.length_cons] at hlen
    rw [blitRows, ih _ (by omega), get_blitRow _ _ _ _ (by omega), rowsBit_cons]
    by_cases h : py = rowOf y
    · subst h; simp [rowsBit_start _ _ _ (by omega : bs.length < 32)]
    · simp [h]

theorem collision_blitRows (x0 y : Nat) (rows : List Byte) (hlen : rows.length ≤ 32) (acc : Display × Bool) :
    (blitRows x0 y rows acc).2 = true ↔
      acc.2 = true ∨ ∃ px py, rowsBit x0 y rows px py = true ∧ acc.1.get px py = true := by
  induction rows generalizing y acc with
  | nil => simp [blitRows, rowsBit_nil]
  | cons b bs ih =>
    simp only [List.length_cons] at hlen
    have hb : bs.length < 32 := by omega
    rw [blitRows, ih _ (by omega), collision_blitRow _ _ _ _ (by omega), or_assoc]
    refine or_congr_right ⟨?_, ?_⟩
    · rintro (⟨px, h, hg⟩ | ⟨px, py, h, hg⟩)
      · exact ⟨px, rowOf y, by rw [rowsBit_cons, if_pos rfl]; exact h, hg⟩
      · have hne : py ≠ rowOf y := by rintro rfl; simp [rowsBit_start _ _ _ hb] at h
        rw [get_blitRow _ _ _ _ (by omega)] at hg
        exact ⟨px, py, by rw [rowsBit_cons, if_neg hne]; exact h, by simpa [hne] using hg⟩
    · rintro ⟨px, py, h, hg⟩
      rw [rowsBit_cons] at h
      split at h
      next he => subst he; exact .inl ⟨px, h, hg⟩
      next hne =>
        refine .inr ⟨px, py, h, ?_⟩
        rw [get_blitRow _ _ _ _ (by omega)]
        simpa [hne] using hg

/-- A whole sprite: every pixel is XORed with the sprite bit that falls on it. -/
theorem get_blit (d : Display) (x0 y0 : Nat) (rows : List Byte) (hlen : rows.length ≤ 32) (px : Col) (py : Row) :
    (blit d x0 y0 rows).1.get px py = (d.get px py ^^ rowsBit x0 y0 rows px py) :=
  get_blitRows x0 y0 rows hlen (d, false) px py

/-- A whole sprite collides when a sprite bit of 1 meets a set pixel. -/
theorem collision_blit (d : Display) (x0 y0 : Nat) (rows : List Byte) (hlen : rows.length ≤ 32) :
    (blit d x0 y0 rows).2 = true ↔ ∃ px py, rowsBit x0 y0 rows px py = true ∧ d.get px py = true := by
  simp [blit, collision_blitRows x0 y0 rows hlen]

end Sys2Proof.Machine
end

