-- ==== Sys2Proof/Laws/Memory.lean ====
section
/-! SUPPORT. The laws of memory: a read after a write, the frame of a write, runs of bytes, and
that every operation keeps the canonical form. -/

namespace Sys2Proof.Machine.Memory

/-! ### One cell -/

theorem lookup_nil (a : Nat) : lookup [] a = unlisted a := rfl

theorem lookup_cell (k : Nat) (b : Byte) (m : Memory) (a : Nat) :
    lookup ((k, b) :: m) a = if k = a then b else lookup m a := rfl

/-- An address below every listed one reads as unlisted. -/
theorem lookup_of_below {m : Memory} {a : Nat} (h : ∀ c ∈ m, a < c.1) : m.lookup a = unlisted a := by
  induction m with
  | nil => rfl
  | cons c m ih =>
    have hc := h c (by simp)
    rw [lookup_cell, if_neg (by omega), ih fun d hd => h d (by simp [hd])]

/-- `cons` shows its byte where nothing below would show through. -/
theorem lookup_cons_same {m : Memory} {a : Nat} (b : Byte) (h : ∀ c ∈ m, a < c.1) :
    (cons a b m).lookup a = b := by
  unfold cons
  split
  · rw [lookup_of_below h]; exact (‹b = _›).symm
  · simp [lookup_cell]

theorem lookup_cons_other {m : Memory} {a k : Nat} (b : Byte) (h : k ≠ a) :
    (cons k b m).lookup a = m.lookup a := by
  unfold cons
  split
  · rfl
  · rw [lookup_cell, if_neg h]

/-- The frame of a store: every other address reads as before, in every memory. -/
theorem lookup_insert_other (m : Memory) {a k : Nat} (b : Byte) (h : k ≠ a) :
    (m.insert k b).lookup a = m.lookup a := by
  induction m with
  | nil => exact lookup_cons_other b h
  | cons c m ih =>
    obtain ⟨k', c⟩ := c
    unfold insert
    split
    · exact lookup_cons_other b h
    · split
      · subst k
        rw [lookup_cons_other b h, lookup_cell, if_neg h]
      · simp only [lookup_cell, ih]

/-- A read after a store to the same address, in a canonical memory. -/
theorem lookup_insert_same {m : Memory} (hm : m.Pairwise fun c d => c.1 < d.1) (a : Nat) (b : Byte) :
    (m.insert a b).lookup a = b := by
  induction m with
  | nil => exact lookup_cons_same b (by simp)
  | cons c m ih =>
    obtain ⟨k, c⟩ := c
    obtain ⟨hk, hm⟩ := List.pairwise_cons.1 hm
    unfold insert
    split
    next hlt =>
      refine lookup_cons_same b fun d hd => ?_
      rcases List.mem_cons.1 hd with rfl | hd
      · exact hlt
      · exact Nat.lt_trans hlt (hk d hd)
    next hge =>
      split
      next heq => subst heq; exact lookup_cons_same b hk
      next hne => rw [lookup_cell, if_neg (Ne.symm hne), ih hm]

/-! ### The canonical form -/

theorem mem_cons_of {a : Nat} {b : Byte} {m : Memory} {c : Host.Cell} (h : c ∈ cons a b m) :
    c ∈ m ∨ (c = (a, b) ∧ b ≠ unlisted a) := by
  unfold cons at h
  split at h
  · exact .inl h
  · rcases List.mem_cons.1 h with rfl | h
    · exact .inr ⟨rfl, ‹_›⟩
    · exact .inl h

theorem mem_insert_of {a : Nat} {b : Byte} {m : Memory} {c : Host.Cell} (h : c ∈ m.insert a b) :
    c ∈ m ∨ (c = (a, b) ∧ b ≠ unlisted a) := by
  induction m with
  | nil => exact mem_cons_of h
  | cons d m ih =>
    obtain ⟨k, d⟩ := d
    unfold insert at h
    split at h
    · exact mem_cons_of h
    · split at h
      · rcases mem_cons_of h with h | h
        · exact .inl (List.mem_cons_of_mem _ h)
        · exact .inr h
      · rcases List.mem_cons.1 h with rfl | h
        · exact .inl (by simp)
        · rcases ih h with h | h
          · exact .inl (List.mem_cons_of_mem _ h)
          · exact .inr h

theorem pairwise_cons_cell {a : Nat} {b : Byte} {m : Memory} (hm : m.Pairwise fun c d => c.1 < d.1)
    (h : ∀ c ∈ m, a < c.1) : (cons a b m).Pairwise fun c d => c.1 < d.1 := by
  unfold cons
  split
  · exact hm
  · exact List.pairwise_cons.2 ⟨h, hm⟩

theorem pairwise_insert {m : Memory} (hm : m.Pairwise fun c d => c.1 < d.1) (a : Nat) (b : Byte) :
    (m.insert a b).Pairwise fun c d => c.1 < d.1 := by
  induction m with
  | nil => exact pairwise_cons_cell .nil (by simp)
  | cons c m ih =>
    obtain ⟨k, c⟩ := c
    obtain ⟨hk, hm'⟩ := List.pairwise_cons.1 hm
    unfold insert
    split
    next hlt =>
      refine pairwise_cons_cell hm fun d hd => ?_
      rcases List.mem_cons.1 hd with rfl | hd
      · exact hlt
      · exact Nat.lt_trans hlt (hk d hd)
    next hge =>
      split
      next heq => subst heq; exact pairwise_cons_cell hm' hk
      next hne =>
        refine List.pairwise_cons.2 ⟨fun d hd => ?_, ih hm'⟩
        rcases mem_insert_of hd with hd | ⟨rfl, -⟩
        · exact hk d hd
        · show k < a; omega

/-- A store inside the address space keeps the canonical form. -/
theorem wf_insert {m : Memory} (hm : m.wf) {a : Nat} (ha : a < Config.memSize) (b : Byte) :
    (m.insert a b).wf := by
  refine ⟨pairwise_insert hm.1 a b, fun c hc => ?_⟩
  rcases mem_insert_of hc with hc | ⟨rfl, hb⟩
  · exact hm.2 c hc
  · exact ⟨ha, hb⟩

theorem wf_nil : wf [] := ⟨.nil, by simp⟩

/-! ### `MemRead` and `MemWrite` -/

theorem read_write_same {m : Memory} (hm : m.wf) (a : Addr) (b : Byte) : (m.write a b).read a = b :=
  lookup_insert_same hm.1 _ b

theorem read_write_other (m : Memory) {a c : Addr} (b : Byte) (h : a ≠ c) :
    (m.write a b).read c = m.read c :=
  lookup_insert_other m b fun e => h (BitVec.eq_of_toNat_eq e)

theorem wf_write {m : Memory} (hm : m.wf) (a : Addr) (b : Byte) : (m.write a b).wf :=
  wf_insert hm a.isLt b

/-! ### Runs of bytes -/

theorem wf_writeBytes {m : Memory} (hm : m.wf) (a : Addr) (bs : List Byte) : (m.writeBytes a bs).wf := by
  induction bs generalizing m a with
  | nil => exact hm
  | cons b bs ih => exact ih (wf_write hm a b) (a + 1)

/-- The frame of a run: an address that lies `bs.length` or more above the start, modulo 4096,
reads as before. -/
theorem read_writeBytes_other (m : Memory) (a c : Addr) (bs : List Byte) (h : bs.length ≤ (c - a).toNat) :
    (m.writeBytes a bs).read c = m.read c := by
  induction bs generalizing m a with
  | nil => rfl
  | cons b bs ih =>
    simp only [List.length_cons] at h
    have hne : a ≠ c := by
      rintro rfl
      simp at h
    have hlt := (c - a).isLt
    have hstep : (c - (a + 1)).toNat = (c - a).toNat - 1 := by bv_omega
    rw [writeBytes, ih _ _ (by omega), read_write_other _ b hne]

/-- What a run leaves: byte `k` at `a + k`, modulo 4096, where the run is no longer than memory. -/
theorem read_writeBytes_same {m : Memory} (hm : m.wf) (a : Addr) (bs : List Byte)
    (hlen : bs.length ≤ 4096) (k : Nat) (hk : k < bs.length) :
    (m.writeBytes a bs).read (a + BitVec.ofNat 12 k) = bs[k] := by
  induction bs generalizing m a k with
  | nil => simp at hk
  | cons b bs ih =>
    simp only [List.length_cons] at hlen hk
    cases k with
    | zero =>
      have : a + BitVec.ofNat 12 0 = a := by simp
      rw [writeBytes, this, read_writeBytes_other, read_write_same hm]
      · rfl
      · have : (a - (a + 1)).toNat = 4095 := by bv_omega
        omega
    | succ k =>
      have : a + BitVec.ofNat 12 (k + 1) = a + 1 + BitVec.ofNat 12 k := by bv_omega
      rw [writeBytes, this, ih (wf_write hm a b) _ (by omega) k (by omega)]
      rfl

@[simp] theorem length_readBytes (m : Memory) (a : Addr) (n : Nat) : (m.readBytes a n).length = n := by
  induction n generalizing a with
  | zero => rfl
  | succ n ih => simp [readBytes, ih]

/-- Byte `k` of a run read from `a` is the byte at `a + k`, modulo 4096. -/
theorem getElem_readBytes (m : Memory) (a : Addr) (n k : Nat) (hk : k < (m.readBytes a n).length) :
    (m.readBytes a n)[k] = m.read (a + BitVec.ofNat 12 k) := by
  induction n generalizing a k with
  | zero => simp at hk
  | succ n ih =>
    cases k with
    | zero => simp [readBytes]
    | succ k =>
      have : a + BitVec.ofNat 12 (k + 1) = a + 1 + BitVec.ofNat 12 k := by bv_omega
      simp only [readBytes, List.getElem_cons_succ, this]
      exact ih (a + 1) k (by simpa using hk)

end Sys2Proof.Machine.Memory
end

