-- ==== Sys2Proof/Laws/State.lean ====
section
/-! SUPPORT. One lemma per field per update of State: what each named update leaves in each
field.  Every one is true by definition, so that no later proof unfolds a record update. -/

namespace Sys2Proof.Machine

variable (s : State)

/-! ### `State.setV` -/

@[simp] theorem State.setV_v (x : Reg) (b : Byte) : (s.setV x b).v = s.v.set x.val b := rfl
@[simp] theorem State.setV_i (x : Reg) (b : Byte) : (s.setV x b).i = s.i := rfl
@[simp] theorem State.setV_pc (x : Reg) (b : Byte) : (s.setV x b).pc = s.pc := rfl
@[simp] theorem State.setV_sp (x : Reg) (b : Byte) : (s.setV x b).sp = s.sp := rfl
@[simp] theorem State.setV_stack (x : Reg) (b : Byte) : (s.setV x b).stack = s.stack := rfl
@[simp] theorem State.setV_dt (x : Reg) (b : Byte) : (s.setV x b).dt = s.dt := rfl
@[simp] theorem State.setV_st (x : Reg) (b : Byte) : (s.setV x b).st = s.st := rfl
@[simp] theorem State.setV_mem (x : Reg) (b : Byte) : (s.setV x b).mem = s.mem := rfl
@[simp] theorem State.setV_disp (x : Reg) (b : Byte) : (s.setV x b).disp = s.disp := rfl
@[simp] theorem State.setV_key (x : Reg) (b : Byte) : (s.setV x b).key = s.key := rfl
@[simp] theorem State.setV_drawPending (x : Reg) (b : Byte) : (s.setV x b).drawPending = s.drawPending := rfl
@[simp] theorem State.setV_soundPending (x : Reg) (b : Byte) : (s.setV x b).soundPending = s.soundPending := rfl
@[simp] theorem State.setV_wait (x : Reg) (b : Byte) : (s.setV x b).wait = s.wait := rfl
@[simp] theorem State.setV_report (x : Reg) (b : Byte) : (s.setV x b).report = s.report := rfl
@[simp] theorem State.setV_rndIn (x : Reg) (b : Byte) : (s.setV x b).rndIn = s.rndIn := rfl
@[simp] theorem State.setV_draws (x : Reg) (b : Byte) : (s.setV x b).draws = s.draws := rfl

/-! ### `State.setFlag` -/

@[simp] theorem State.setFlag_v (f : Bool) : (s.setFlag f).v = s.v.set flagReg.val (flagByte f) := rfl
@[simp] theorem State.setFlag_i (f : Bool) : (s.setFlag f).i = s.i := rfl
@[simp] theorem State.setFlag_pc (f : Bool) : (s.setFlag f).pc = s.pc := rfl
@[simp] theorem State.setFlag_sp (f : Bool) : (s.setFlag f).sp = s.sp := rfl
@[simp] theorem State.setFlag_stack (f : Bool) : (s.setFlag f).stack = s.stack := rfl
@[simp] theorem State.setFlag_dt (f : Bool) : (s.setFlag f).dt = s.dt := rfl
@[simp] theorem State.setFlag_st (f : Bool) : (s.setFlag f).st = s.st := rfl
@[simp] theorem State.setFlag_mem (f : Bool) : (s.setFlag f).mem = s.mem := rfl
@[simp] theorem State.setFlag_disp (f : Bool) : (s.setFlag f).disp = s.disp := rfl
@[simp] theorem State.setFlag_key (f : Bool) : (s.setFlag f).key = s.key := rfl
@[simp] theorem State.setFlag_drawPending (f : Bool) : (s.setFlag f).drawPending = s.drawPending := rfl
@[simp] theorem State.setFlag_soundPending (f : Bool) : (s.setFlag f).soundPending = s.soundPending := rfl
@[simp] theorem State.setFlag_wait (f : Bool) : (s.setFlag f).wait = s.wait := rfl
@[simp] theorem State.setFlag_report (f : Bool) : (s.setFlag f).report = s.report := rfl
@[simp] theorem State.setFlag_rndIn (f : Bool) : (s.setFlag f).rndIn = s.rndIn := rfl
@[simp] theorem State.setFlag_draws (f : Bool) : (s.setFlag f).draws = s.draws := rfl

/-! ### `State.setVAndFlag` -/

@[simp] theorem State.setVAndFlag_i (x : Reg) (b : Byte) (f : Bool) : (s.setVAndFlag x b f).i = s.i := rfl
@[simp] theorem State.setVAndFlag_pc (x : Reg) (b : Byte) (f : Bool) : (s.setVAndFlag x b f).pc = s.pc := rfl
@[simp] theorem State.setVAndFlag_sp (x : Reg) (b : Byte) (f : Bool) : (s.setVAndFlag x b f).sp = s.sp := rfl
@[simp] theorem State.setVAndFlag_stack (x : Reg) (b : Byte) (f : Bool) : (s.setVAndFlag x b f).stack = s.stack := rfl
@[simp] theorem State.setVAndFlag_dt (x : Reg) (b : Byte) (f : Bool) : (s.setVAndFlag x b f).dt = s.dt := rfl
@[simp] theorem State.setVAndFlag_st (x : Reg) (b : Byte) (f : Bool) : (s.setVAndFlag x b f).st = s.st := rfl
@[simp] theorem State.setVAndFlag_mem (x : Reg) (b : Byte) (f : Bool) : (s.setVAndFlag x b f).mem = s.mem := rfl
@[simp] theorem State.setVAndFlag_disp (x : Reg) (b : Byte) (f : Bool) : (s.setVAndFlag x b f).disp = s.disp := rfl
@[simp] theorem State.setVAndFlag_key (x : Reg) (b : Byte) (f : Bool) : (s.setVAndFlag x b f).key = s.key := rfl
@[simp] theorem State.setVAndFlag_drawPending (x : Reg) (b : Byte) (f : Bool) : (s.setVAndFlag x b f).drawPending = s.drawPending := rfl
@[simp] theorem State.setVAndFlag_soundPending (x : Reg) (b : Byte) (f : Bool) : (s.setVAndFlag x b f).soundPending = s.soundPending := rfl
@[simp] theorem State.setVAndFlag_wait (x : Reg) (b : Byte) (f : Bool) : (s.setVAndFlag x b f).wait = s.wait := rfl
@[simp] theorem State.setVAndFlag_report (x : Reg) (b : Byte) (f : Bool) : (s.setVAndFlag x b f).report = s.report := rfl
@[simp] theorem State.setVAndFlag_rndIn (x : Reg) (b : Byte) (f : Bool) : (s.setVAndFlag x b f).rndIn = s.rndIn := rfl
@[simp] theorem State.setVAndFlag_draws (x : Reg) (b : Byte) (f : Bool) : (s.setVAndFlag x b f).draws = s.draws := rfl

/-! ### `State.setI` -/

@[simp] theorem State.setI_v (a : Addr) : (s.setI a).v = s.v := rfl
@[simp] theorem State.setI_i (a : Addr) : (s.setI a).i = a := rfl
@[simp] theorem State.setI_pc (a : Addr) : (s.setI a).pc = s.pc := rfl
@[simp] theorem State.setI_sp (a : Addr) : (s.setI a).sp = s.sp := rfl
@[simp] theorem State.setI_stack (a : Addr) : (s.setI a).stack = s.stack := rfl
@[simp] theorem State.setI_dt (a : Addr) : (s.setI a).dt = s.dt := rfl
@[simp] theorem State.setI_st (a : Addr) : (s.setI a).st = s.st := rfl
@[simp] theorem State.setI_mem (a : Addr) : (s.setI a).mem = s.mem := rfl
@[simp] theorem State.setI_disp (a : Addr) : (s.setI a).disp = s.disp := rfl
@[simp] theorem State.setI_key (a : Addr) : (s.setI a).key = s.key := rfl
@[simp] theorem State.setI_drawPending (a : Addr) : (s.setI a).drawPending = s.drawPending := rfl
@[simp] theorem State.setI_soundPending (a : Addr) : (s.setI a).soundPending = s.soundPending := rfl
@[simp] theorem State.setI_wait (a : Addr) : (s.setI a).wait = s.wait := rfl
@[simp] theorem State.setI_report (a : Addr) : (s.setI a).report = s.report := rfl
@[simp] theorem State.setI_rndIn (a : Addr) : (s.setI a).rndIn = s.rndIn := rfl
@[simp] theorem State.setI_draws (a : Addr) : (s.setI a).draws = s.draws := rfl

/-! ### `State.bumpI` -/

@[simp] theorem State.bumpI_v (x : Reg) : (s.bumpI x).v = s.v := rfl
@[simp] theorem State.bumpI_i (x : Reg) : (s.bumpI x).i = s.i + BitVec.ofNat 12 (x.val + 1) := rfl
@[simp] theorem State.bumpI_pc (x : Reg) : (s.bumpI x).pc = s.pc := rfl
@[simp] theorem State.bumpI_sp (x : Reg) : (s.bumpI x).sp = s.sp := rfl
@[simp] theorem State.bumpI_stack (x : Reg) : (s.bumpI x).stack = s.stack := rfl
@[simp] theorem State.bumpI_dt (x : Reg) : (s.bumpI x).dt = s.dt := rfl
@[simp] theorem State.bumpI_st (x : Reg) : (s.bumpI x).st = s.st := rfl
@[simp] theorem State.bumpI_mem (x : Reg) : (s.bumpI x).mem = s.mem := rfl
@[simp] theorem State.bumpI_disp (x : Reg) : (s.bumpI x).disp = s.disp := rfl
@[simp] theorem State.bumpI_key (x : Reg) : (s.bumpI x).key = s.key := rfl
@[simp] theorem State.bumpI_drawPending (x : Reg) : (s.bumpI x).drawPending = s.drawPending := rfl
@[simp] theorem State.bumpI_soundPending (x : Reg) : (s.bumpI x).soundPending = s.soundPending := rfl
@[simp] theorem State.bumpI_wait (x : Reg) : (s.bumpI x).wait = s.wait := rfl
@[simp] theorem State.bumpI_report (x : Reg) : (s.bumpI x).report = s.report := rfl
@[simp] theorem State.bumpI_rndIn (x : Reg) : (s.bumpI x).rndIn = s.rndIn := rfl
@[simp] theorem State.bumpI_draws (x : Reg) : (s.bumpI x).draws = s.draws := rfl

/-! ### `State.setPc` -/

@[simp] theorem State.setPc_v (a : Addr) : (s.setPc a).v = s.v := rfl
@[simp] theorem State.setPc_i (a : Addr) : (s.setPc a).i = s.i := rfl
@[simp] theorem State.setPc_pc (a : Addr) : (s.setPc a).pc = a := rfl
@[simp] theorem State.setPc_sp (a : Addr) : (s.setPc a).sp = s.sp := rfl
@[simp] theorem State.setPc_stack (a : Addr) : (s.setPc a).stack = s.stack := rfl
@[simp] theorem State.setPc_dt (a : Addr) : (s.setPc a).dt = s.dt := rfl
@[simp] theorem State.setPc_st (a : Addr) : (s.setPc a).st = s.st := rfl
@[simp] theorem State.setPc_mem (a : Addr) : (s.setPc a).mem = s.mem := rfl
@[simp] theorem State.setPc_disp (a : Addr) : (s.setPc a).disp = s.disp := rfl
@[simp] theorem State.setPc_key (a : Addr) : (s.setPc a).key = s.key := rfl
@[simp] theorem State.setPc_drawPending (a : Addr) : (s.setPc a).drawPending = s.drawPending := rfl
@[simp] theorem State.setPc_soundPending (a : Addr) : (s.setPc a).soundPending = s.soundPending := rfl
@[simp] theorem State.setPc_wait (a : Addr) : (s.setPc a).wait = s.wait := rfl
@[simp] theorem State.setPc_report (a : Addr) : (s.setPc a).report = s.report := rfl
@[simp] theorem State.setPc_rndIn (a : Addr) : (s.setPc a).rndIn = s.rndIn := rfl
@[simp] theorem State.setPc_draws (a : Addr) : (s.setPc a).draws = s.draws := rfl

/-! ### `State.advance` -/

@[simp] theorem State.advance_v : (s.advance).v = s.v := rfl
@[simp] theorem State.advance_i : (s.advance).i = s.i := rfl
@[simp] theorem State.advance_pc : (s.advance).pc = s.pc + 2 := rfl
@[simp] theorem State.advance_sp : (s.advance).sp = s.sp := rfl
@[simp] theorem State.advance_stack : (s.advance).stack = s.stack := rfl
@[simp] theorem State.advance_dt : (s.advance).dt = s.dt := rfl
@[simp] theorem State.advance_st : (s.advance).st = s.st := rfl
@[simp] theorem State.advance_mem : (s.advance).mem = s.mem := rfl
@[simp] theorem State.advance_disp : (s.advance).disp = s.disp := rfl
@[simp] theorem State.advance_key : (s.advance).key = s.key := rfl
@[simp] theorem State.advance_drawPending : (s.advance).drawPending = s.drawPending := rfl
@[simp] theorem State.advance_soundPending : (s.advance).soundPending = s.soundPending := rfl
@[simp] theorem State.advance_wait : (s.advance).wait = s.wait := rfl
@[simp] theorem State.advance_report : (s.advance).report = s.report := rfl
@[simp] theorem State.advance_rndIn : (s.advance).rndIn = s.rndIn := rfl
@[simp] theorem State.advance_draws : (s.advance).draws = s.draws := rfl

/-! ### `State.skipIf` -/

@[simp] theorem State.skipIf_v (c : Bool) : (s.skipIf c).v = s.v := rfl
@[simp] theorem State.skipIf_i (c : Bool) : (s.skipIf c).i = s.i := rfl
@[simp] theorem State.skipIf_pc (c : Bool) : (s.skipIf c).pc = if c then s.pc + 4 else s.pc + 2 := rfl
@[simp] theorem State.skipIf_sp (c : Bool) : (s.skipIf c).sp = s.sp := rfl
@[simp] theorem State.skipIf_stack (c : Bool) : (s.skipIf c).stack = s.stack := rfl
@[simp] theorem State.skipIf_dt (c : Bool) : (s.skipIf c).dt = s.dt := rfl
@[simp] theorem State.skipIf_st (c : Bool) : (s.skipIf c).st = s.st := rfl
@[simp] theorem State.skipIf_mem (c : Bool) : (s.skipIf c).mem = s.mem := rfl
@[simp] theorem State.skipIf_disp (c : Bool) : (s.skipIf c).disp = s.disp := rfl
@[simp] theorem State.skipIf_key (c : Bool) : (s.skipIf c).key = s.key := rfl
@[simp] theorem State.skipIf_drawPending (c : Bool) : (s.skipIf c).drawPending = s.drawPending := rfl
@[simp] theorem State.skipIf_soundPending (c : Bool) : (s.skipIf c).soundPending = s.soundPending := rfl
@[simp] theorem State.skipIf_wait (c : Bool) : (s.skipIf c).wait = s.wait := rfl
@[simp] theorem State.skipIf_report (c : Bool) : (s.skipIf c).report = s.report := rfl
@[simp] theorem State.skipIf_rndIn (c : Bool) : (s.skipIf c).rndIn = s.rndIn := rfl
@[simp] theorem State.skipIf_draws (c : Bool) : (s.skipIf c).draws = s.draws := rfl

/-! ### `State.storeAtI` -/

@[simp] theorem State.storeAtI_v (bs : List Byte) : (s.storeAtI bs).v = s.v := rfl
@[simp] theorem State.storeAtI_i (bs : List Byte) : (s.storeAtI bs).i = s.i := rfl
@[simp] theorem State.storeAtI_pc (bs : List Byte) : (s.storeAtI bs).pc = s.pc := rfl
@[simp] theorem State.storeAtI_sp (bs : List Byte) : (s.storeAtI bs).sp = s.sp := rfl
@[simp] theorem State.storeAtI_stack (bs : List Byte) : (s.storeAtI bs).stack = s.stack := rfl
@[simp] theorem State.storeAtI_dt (bs : List Byte) : (s.storeAtI bs).dt = s.dt := rfl
@[simp] theorem State.storeAtI_st (bs : List Byte) : (s.storeAtI bs).st = s.st := rfl
@[simp] theorem State.storeAtI_mem (bs : List Byte) : (s.storeAtI bs).mem = s.mem.writeBytes s.i bs := rfl
@[simp] theorem State.storeAtI_disp (bs : List Byte) : (s.storeAtI bs).disp = s.disp := rfl
@[simp] theorem State.storeAtI_key (bs : List Byte) : (s.storeAtI bs).key = s.key := rfl
@[simp] theorem State.storeAtI_drawPending (bs : List Byte) : (s.storeAtI bs).drawPending = s.drawPending := rfl
@[simp] theorem State.storeAtI_soundPending (bs : List Byte) : (s.storeAtI bs).soundPending = s.soundPending := rfl
@[simp] theorem State.storeAtI_wait (bs : List Byte) : (s.storeAtI bs).wait = s.wait := rfl
@[simp] theorem State.storeAtI_report (bs : List Byte) : (s.storeAtI bs).report = s.report := rfl
@[simp] theorem State.storeAtI_rndIn (bs : List Byte) : (s.storeAtI bs).rndIn = s.rndIn := rfl
@[simp] theorem State.storeAtI_draws (bs : List Byte) : (s.storeAtI bs).draws = s.draws := rfl

/-! ### `State.tick` -/

@[simp] theorem State.tick_v : (s.tick).v = s.v := rfl
@[simp] theorem State.tick_i : (s.tick).i = s.i := rfl
@[simp] theorem State.tick_pc : (s.tick).pc = s.pc := rfl
@[simp] theorem State.tick_sp : (s.tick).sp = s.sp := rfl
@[simp] theorem State.tick_stack : (s.tick).stack = s.stack := rfl
@[simp] theorem State.tick_dt : (s.tick).dt = countDown s.dt := rfl
@[simp] theorem State.tick_st : (s.tick).st = countDown s.st := rfl
@[simp] theorem State.tick_mem : (s.tick).mem = s.mem := rfl
@[simp] theorem State.tick_disp : (s.tick).disp = s.disp := rfl
@[simp] theorem State.tick_key : (s.tick).key = s.key := rfl
@[simp] theorem State.tick_drawPending : (s.tick).drawPending = s.drawPending := rfl
@[simp] theorem State.tick_soundPending : (s.tick).soundPending = (s.soundPending || s.st == 1) := rfl
@[simp] theorem State.tick_wait : (s.tick).wait = s.wait := rfl
@[simp] theorem State.tick_report : (s.tick).report = s.report := rfl
@[simp] theorem State.tick_rndIn : (s.tick).rndIn = s.rndIn := rfl
@[simp] theorem State.tick_draws : (s.tick).draws = s.draws := rfl

/-! ### `State.retire` -/

@[simp] theorem State.retire_v (r : Condition) : (s.retire r).v = s.v := rfl
@[simp] theorem State.retire_i (r : Condition) : (s.retire r).i = s.i := rfl
@[simp] theorem State.retire_pc (r : Condition) : (s.retire r).pc = s.pc := rfl
@[simp] theorem State.retire_sp (r : Condition) : (s.retire r).sp = s.sp := rfl
@[simp] theorem State.retire_stack (r : Condition) : (s.retire r).stack = s.stack := rfl
@[simp] theorem State.retire_dt (r : Condition) : (s.retire r).dt = countDown s.dt := rfl
@[simp] theorem State.retire_st (r : Condition) : (s.retire r).st = countDown s.st := rfl
@[simp] theorem State.retire_mem (r : Condition) : (s.retire r).mem = s.mem := rfl
@[simp] theorem State.retire_disp (r : Condition) : (s.retire r).disp = s.disp := rfl
@[simp] theorem State.retire_key (r : Condition) : (s.retire r).key = s.key := rfl
@[simp] theorem State.retire_drawPending (r : Condition) : (s.retire r).drawPending = s.drawPending := rfl
@[simp] theorem State.retire_soundPending (r : Condition) : (s.retire r).soundPending = (s.soundPending || s.st == 1) := rfl
@[simp] theorem State.retire_wait (r : Condition) : (s.retire r).wait = false := rfl
@[simp] theorem State.retire_report (r : Condition) : (s.retire r).report = r := rfl
@[simp] theorem State.retire_rndIn (r : Condition) : (s.retire r).rndIn = s.rndIn := rfl
@[simp] theorem State.retire_draws (r : Condition) : (s.retire r).draws = s.draws := rfl

/-! ### `State.showDisplay` -/

@[simp] theorem State.showDisplay_v (d : Display) : (s.showDisplay d).v = s.v := rfl
@[simp] theorem State.showDisplay_i (d : Display) : (s.showDisplay d).i = s.i := rfl
@[simp] theorem State.showDisplay_pc (d : Display) : (s.showDisplay d).pc = s.pc := rfl
@[simp] theorem State.showDisplay_sp (d : Display) : (s.showDisplay d).sp = s.sp := rfl
@[simp] theorem State.showDisplay_stack (d : Display) : (s.showDisplay d).stack = s.stack := rfl
@[simp] theorem State.showDisplay_dt (d : Display) : (s.showDisplay d).dt = s.dt := rfl
@[simp] theorem State.showDisplay_st (d : Display) : (s.showDisplay d).st = s.st := rfl
@[simp] theorem State.showDisplay_mem (d : Display) : (s.showDisplay d).mem = s.mem := rfl
@[simp] theorem State.showDisplay_disp (d : Display) : (s.showDisplay d).disp = d := rfl
@[simp] theorem State.showDisplay_key (d : Display) : (s.showDisplay d).key = s.key := rfl
@[simp] theorem State.showDisplay_drawPending (d : Display) : (s.showDisplay d).drawPending = true := rfl
@[simp] theorem State.showDisplay_soundPending (d : Display) : (s.showDisplay d).soundPending = s.soundPending := rfl
@[simp] theorem State.showDisplay_wait (d : Display) : (s.showDisplay d).wait = s.wait := rfl
@[simp] theorem State.showDisplay_report (d : Display) : (s.showDisplay d).report = s.report := rfl
@[simp] theorem State.showDisplay_rndIn (d : Display) : (s.showDisplay d).rndIn = s.rndIn := rfl
@[simp] theorem State.showDisplay_draws (d : Display) : (s.showDisplay d).draws = s.draws := rfl

/-! ### `State.placeWord` -/

@[simp] theorem State.placeWord_v (w : Opcode) : (s.placeWord w).v = s.v := rfl
@[simp] theorem State.placeWord_i (w : Opcode) : (s.placeWord w).i = s.i := rfl
@[simp] theorem State.placeWord_pc (w : Opcode) : (s.placeWord w).pc = s.pc := rfl
@[simp] theorem State.placeWord_sp (w : Opcode) : (s.placeWord w).sp = s.sp := rfl
@[simp] theorem State.placeWord_stack (w : Opcode) : (s.placeWord w).stack = s.stack := rfl
@[simp] theorem State.placeWord_dt (w : Opcode) : (s.placeWord w).dt = s.dt := rfl
@[simp] theorem State.placeWord_st (w : Opcode) : (s.placeWord w).st = s.st := rfl
@[simp] theorem State.placeWord_mem (w : Opcode) : (s.placeWord w).mem = s.mem.writeBytes s.pc [hiByte w, loByte w] := rfl
@[simp] theorem State.placeWord_disp (w : Opcode) : (s.placeWord w).disp = s.disp := rfl
@[simp] theorem State.placeWord_key (w : Opcode) : (s.placeWord w).key = s.key := rfl
@[simp] theorem State.placeWord_drawPending (w : Opcode) : (s.placeWord w).drawPending = s.drawPending := rfl
@[simp] theorem State.placeWord_soundPending (w : Opcode) : (s.placeWord w).soundPending = s.soundPending := rfl
@[simp] theorem State.placeWord_wait (w : Opcode) : (s.placeWord w).wait = s.wait := rfl
@[simp] theorem State.placeWord_report (w : Opcode) : (s.placeWord w).report = s.report := rfl
@[simp] theorem State.placeWord_rndIn (w : Opcode) : (s.placeWord w).rndIn = s.rndIn := rfl
@[simp] theorem State.placeWord_draws (w : Opcode) : (s.placeWord w).draws = s.draws := rfl

/-! ### `State.setKey` -/

@[simp] theorem State.setKey_v (k : KeyCode) (b : Bool) : (s.setKey k b).v = s.v := rfl
@[simp] theorem State.setKey_i (k : KeyCode) (b : Bool) : (s.setKey k b).i = s.i := rfl
@[simp] theorem State.setKey_pc (k : KeyCode) (b : Bool) : (s.setKey k b).pc = s.pc := rfl
@[simp] theorem State.setKey_sp (k : KeyCode) (b : Bool) : (s.setKey k b).sp = s.sp := rfl
@[simp] theorem State.setKey_stack (k : KeyCode) (b : Bool) : (s.setKey k b).stack = s.stack := rfl
@[simp] theorem State.setKey_dt (k : KeyCode) (b : Bool) : (s.setKey k b).dt = s.dt := rfl
@[simp] theorem State.setKey_st (k : KeyCode) (b : Bool) : (s.setKey k b).st = s.st := rfl
@[simp] theorem State.setKey_mem (k : KeyCode) (b : Bool) : (s.setKey k b).mem = s.mem := rfl
@[simp] theorem State.setKey_disp (k : KeyCode) (b : Bool) : (s.setKey k b).disp = s.disp := rfl
@[simp] theorem State.setKey_key (k : KeyCode) (b : Bool) : (s.setKey k b).key = s.key.set k.val b := rfl
@[simp] theorem State.setKey_drawPending (k : KeyCode) (b : Bool) : (s.setKey k b).drawPending = s.drawPending := rfl
@[simp] theorem State.setKey_soundPending (k : KeyCode) (b : Bool) : (s.setKey k b).soundPending = s.soundPending := rfl
@[simp] theorem State.setKey_wait (k : KeyCode) (b : Bool) : (s.setKey k b).wait = s.wait := rfl
@[simp] theorem State.setKey_report (k : KeyCode) (b : Bool) : (s.setKey k b).report = s.report := rfl
@[simp] theorem State.setKey_rndIn (k : KeyCode) (b : Bool) : (s.setKey k b).rndIn = s.rndIn := rfl
@[simp] theorem State.setKey_draws (k : KeyCode) (b : Bool) : (s.setKey k b).draws = s.draws := rfl

end Sys2Proof.Machine
end

