-- ==== Sys2Proof/Laws/Registers.lean ====
section
/-! SUPPORT. Reading a register after each update, the flag written last, the block of registers
a load fills, and the key latch. -/

namespace Sys2Proof.Machine

variable (s : State)

@[simp] theorem getV_setV_same (x : Reg) (b : Byte) : (s.setV x b).getV x = b := by
  simp [State.getV]

theorem getV_setV_other {x r : Reg} (b : Byte) (h : r ≠ x) : (s.setV x b).getV r = s.getV r := by
  have : x.val ≠ r.val := fun e => h (Fin.ext e.symm)
  simp [State.getV, this]

theorem getV_setV (x r : Reg) (b : Byte) : (s.setV x b).getV r = if r = x then b else s.getV r := by
  split
  · subst r; simp
  · exact getV_setV_other s b ‹_›

theorem getV_setFlag (f : Bool) (r : Reg) :
    (s.setFlag f).getV r = if r = flagReg then flagByte f else s.getV r := getV_setV s _ _ _

/-- Result first, flag last: register 15 holds the flag, whichever the destination. -/
theorem getV_setVAndFlag (x r : Reg) (b : Byte) (f : Bool) :
    (s.setVAndFlag x b f).getV r =
      if r = flagReg then flagByte f else if r = x then b else s.getV r := by
  rw [State.setVAndFlag, getV_setFlag, getV_setV]

/-! ### Updates that leave every register alone -/

@[simp] theorem getV_setI (a : Addr) (r : Reg) : (s.setI a).getV r = s.getV r := rfl
@[simp] theorem getV_bumpI (x r : Reg) : (s.bumpI x).getV r = s.getV r := rfl
@[simp] theorem getV_setPc (a : Addr) (r : Reg) : (s.setPc a).getV r = s.getV r := rfl
@[simp] theorem getV_advance (r : Reg) : s.advance.getV r = s.getV r := rfl
@[simp] theorem getV_skipIf (c : Bool) (r : Reg) : (s.skipIf c).getV r = s.getV r := rfl
@[simp] theorem getV_storeAtI (bs : List Byte) (r : Reg) : (s.storeAtI bs).getV r = s.getV r := rfl
@[simp] theorem getV_retire (c : Condition) (r : Reg) : (s.retire c).getV r = s.getV r := rfl
@[simp] theorem getV_showDisplay (d : Display) (r : Reg) : (s.showDisplay d).getV r = s.getV r := rfl
@[simp] theorem getV_placeWord (w : Opcode) (r : Reg) : (s.placeWord w).getV r = s.getV r := rfl

/-! ### The block of registers a load fills -/

/-- Register `j` after bytes are loaded from register `k` upwards. -/
theorem getElem_setRegsFrom (v : Vector Byte 16) (k : Nat) (bs : List Byte) (j : Nat) (hj : j < 16) :
    (setRegsFrom v k bs)[j] = if k ≤ j then bs.getD (j - k) v[j] else v[j] := by
  induction bs generalizing v k with
  | nil => simp [setRegsFrom]
  | cons b bs ih =>
    rw [setRegsFrom, ih]
    by_cases hlt : k + 1 ≤ j
    · obtain ⟨d, hd⟩ : ∃ d, j - k = d + 1 := ⟨j - k - 1, by omega⟩
      have hd' : j - (k + 1) = d := by omega
      have hkj : k ≠ j := by omega
      simp [hlt, show k ≤ j by omega, hd, hd', hkj]
    · by_cases hkj : k = j
      · subst hkj
        simp
      · have : ¬ k ≤ j := by omega
        simp [hlt, this, hkj]

/-- The registers handed to a block store. -/
theorem length_regsUpTo (x : Reg) : (s.regsUpTo x).length = x.val + 1 := by
  have := x.isLt
  simp [State.regsUpTo]

theorem getElem_regsUpTo (x : Reg) (k : Nat) (hk : k < (s.regsUpTo x).length) :
    (s.regsUpTo x)[k] = s.v[k]'(by rw [length_regsUpTo] at hk; omega) := by
  simp [State.regsUpTo]

/-! ### Flags and the key latch -/

@[simp] theorem flagByte_toNat (f : Bool) : (flagByte f).toNat = if f then 1 else 0 := by
  cases f <;> rfl

theorem pressed_setKey (k j : KeyCode) (b : Bool) :
    (s.setKey k b).pressed j = if j = k then b else s.pressed j := by
  by_cases h : j = k
  · subst h; simp [State.pressed]
  · have : k.val ≠ j.val := fun e => h (Fin.ext e.symm)
    simp [State.pressed, this, h]

/-- No key is found exactly when every key is released. -/
theorem lowestKey_eq_none : s.lowestKey = none ↔ ∀ k, s.pressed k = false := by
  simp [State.lowestKey, List.find?_eq_none]

/-- The key found is pressed, and every lower one is released. -/
theorem lowestKey_eq_some {k : KeyCode} :
    s.lowestKey = some k ↔ s.pressed k = true ∧ ∀ j < k, s.pressed j = false := by
  simp only [State.lowestKey, List.find?_eq_some_iff_getElem]
  constructor
  · rintro ⟨hp, n, hn, rfl, hlt⟩
    refine ⟨hp, fun j hj => ?_⟩
    have := hlt j.val (by simpa [Fin.lt_def] using hj)
    simpa using this
  · rintro ⟨hp, hlt⟩
    refine ⟨hp, k.val, by simp, by simp, fun j hj => ?_⟩
    simpa using hlt ⟨j, by omega⟩ (by simpa [Fin.lt_def] using hj)

end Sys2Proof.Machine
end

