-- ==== Sys2Proof/Laws/Exec.lean ====
section
/-! SUPPORT. What each meaning and the step can do, said once: the equations of the meanings, the
inversion of exec (if it answers next, then …), and what never moves. -/

namespace Sys2Proof.Machine

/-! ### The ends of a step -/

theorem complete_eq_next {s t : State} : complete s = .next t ↔ t = s.retire .ok := by
  constructor
  · intro h; injection h with h; exact h.symm
  · rintro rfl; rfl

theorem stall_eq_next {s t : State} : stall s = .next t ↔ t = { s with wait := true, report := .ok } := by
  constructor
  · intro h; injection h with h; exact h.symm
  · rintro rfl; rfl

theorem raiseFatal_ne_next {f : Fault} {t : State} : raiseFatal f ≠ .next t := by
  intro h; cases h

theorem complete_ne_fault {s : State} {f : Fault} : complete s ≠ .fault f := by
  intro h; cases h

theorem complete_ne_refused {s : State} {r : Refusal} : complete s ≠ .refused r := by
  intro h; cases h

theorem countDown_toNat (b : Byte) : (countDown b).toNat = b.toNat - 1 := by
  unfold countDown
  split
  · subst b; rfl
  · have : b.toNat ≠ 0 := fun e => ‹¬ b = 0› (BitVec.eq_of_toNat_eq e)
    bv_omega

/-! ### The call stack -/

theorem push_of_lt {s : State} (h : s.sp.val < 16) (a : Addr) :
    s.push a = some { s with stack := s.stack.set s.sp.val a, sp := ⟨s.sp.val + 1, by omega⟩ } := by
  simp [State.push, h]

theorem push_of_full {s : State} (h : s.sp.val = 16) (a : Addr) : s.push a = none := by
  simp [State.push, h]

theorem pop_of_pos {s : State} (h : 0 < s.sp.val) :
    s.pop = some (s.stack[s.sp.val - 1], { s with sp := ⟨s.sp.val - 1, by omega⟩ }) := by
  simp [State.pop, h]

theorem pop_of_empty {s : State} (h : s.sp.val = 0) : s.pop = none := by
  simp [State.pop, h]

theorem execRet_of_pos {s : State} (h : 0 < s.sp.val) :
    execRet s = complete (State.setPc
      { s with sp := ⟨s.sp.val - 1, by omega⟩ } (s.stack[s.sp.val - 1] + 2)) := by
  rw [execRet, pop_of_pos h]

theorem execRet_of_empty {s : State} (h : s.sp.val = 0) :
    execRet s = .fault (.stackUnderflow (encodeWord .ret) s.pc) := by
  rw [execRet, pop_of_empty h]; rfl

theorem execCallNNN_of_lt {s : State} (h : s.sp.val < 16) (nnn : Addr) :
    execCallNNN nnn s = complete (State.setPc
      { s with stack := s.stack.set s.sp.val s.pc, sp := ⟨s.sp.val + 1, by omega⟩ } nnn) := by
  rw [execCallNNN, push_of_lt h]

theorem execCallNNN_of_full {s : State} (h : s.sp.val = 16) (nnn : Addr) :
    execCallNNN nnn s = .fault (.stackOverflow (encodeWord (.callNNN nnn)) s.pc) := by
  rw [execCallNNN, push_of_full h]; rfl

/-! ### The key-wait -/

theorem execLdVxK_of_none {s : State} (h : ∀ k, s.pressed k = false) (x : Reg) :
    execLdVxK x s = .next { s with wait := true, report := .ok } := by
  rw [execLdVxK, (lowestKey_eq_none s).2 h]; rfl

theorem execLdVxK_of_lowest {s : State} {k : KeyCode} (hk : s.pressed k = true)
    (hlow : ∀ j < k, s.pressed j = false) (x : Reg) :
    execLdVxK x s = writeReg x (BitVec.ofNat 8 k.val) s := by
  rw [execLdVxK, (lowestKey_eq_some s).2 ⟨hk, hlow⟩]

/-! ### Inversion: what an instruction that completes has done before it retires -/

/-- What the state `u` before the tick owes to the state `s` before the instruction `i`. -/
structure Executes (i : Instr) (s u : State) : Prop where
  key : u.key = s.key
  rndIn : u.rndIn = s.rndIn
  soundPending : u.soundPending = s.soundPending
  dt : u.dt = s.dt ∨ ∃ x, i = .ldDTVx x
  st : u.st = s.st ∨ ∃ x, i = .ldSTVx x
  mem : u.mem = s.mem ∨
    ((∃ x, i = .ldBVx x) ∨ ∃ x, i = .ldAtIVx x) ∧ ∃ bs, u.mem = s.mem.writeBytes s.i bs
  disp : (u.disp = s.disp ∧ u.drawPending = s.drawPending) ∨
    (i = .cls ∨ ∃ x y n, i = .drwVxVyN x y n) ∧ u.drawPending = true
  stack : (u.sp = s.sp ∧ u.stack = s.stack) ∨ i = .ret ∨ ∃ nnn, i = .callNNN nnn

theorem Executes.retires {i : Instr} {s t u : State} (he : exec i s = complete u) (hx : Executes i s u)
    (h : exec i s = .next t) : ∃ u, Executes i s u ∧ t = u.retire .ok :=
  ⟨u, hx, complete_eq_next.1 (he ▸ h)⟩

theorem Executes.of_complete {i : Instr} {s t u : State} (h : complete u = .next t) (hx : Executes i s u) :
    ∃ u, Executes i s u ∧ t = u.retire .ok := ⟨u, hx, complete_eq_next.1 h⟩

/-- If an instruction answers a next state, it stalled (a key-wait with every key released), or it
executed and retired. -/
theorem exec_next {i : Instr} {s t : State} (h : exec i s = .next t) :
    (∃ x, i = .ldVxK x ∧ (∀ k, s.pressed k = false) ∧ t = { s with wait := true, report := .ok }) ∨
      ∃ u, Executes i s u ∧ t = u.retire .ok := by
  cases i
  case ldVxK x =>
    simp only [exec, execLdVxK] at h
    split at h
    next hn => exact .inl ⟨x, rfl, (lowestKey_eq_none s).1 hn, stall_eq_next.1 h⟩
    next k hk => exact .inr (Executes.of_complete h ⟨rfl, rfl, rfl, .inl rfl, .inl rfl, .inl rfl, .inl ⟨rfl, rfl⟩, .inl ⟨rfl, rfl⟩⟩)
  case ret =>
    simp only [exec, execRet] at h
    split at h
    next a u hp =>
      unfold State.pop at hp
      split at hp
      · injection hp with hp
        injection hp with _ hp
        subst hp
        exact .inr (Executes.of_complete h ⟨rfl, rfl, rfl, .inl rfl, .inl rfl, .inl rfl, .inl ⟨rfl, rfl⟩, .inr (.inl rfl)⟩)
      · cases hp
    · cases h
  case callNNN nnn =>
    simp only [exec, execCallNNN] at h
    split at h
    next u hp =>
      unfold State.push at hp
      split at hp
      · injection hp with hp
        subst hp
        exact .inr (Executes.of_complete h ⟨rfl, rfl, rfl, .inl rfl, .inl rfl, .inl rfl, .inl ⟨rfl, rfl⟩, .inr (.inr ⟨_, rfl⟩)⟩)
      · cases hp
    · cases h
  case cls =>
    exact .inr (Executes.retires rfl ⟨rfl, rfl, rfl, .inl rfl, .inl rfl, .inl rfl, .inr ⟨.inl rfl, rfl⟩, .inl ⟨rfl, rfl⟩⟩ h)
  case drwVxVyN x y n =>
    exact .inr (Executes.retires rfl ⟨rfl, rfl, rfl, .inl rfl, .inl rfl, .inl rfl, .inr ⟨.inr ⟨x, y, n, rfl⟩, rfl⟩, .inl ⟨rfl, rfl⟩⟩ h)
  case ldBVx x =>
    exact .inr (Executes.retires rfl ⟨rfl, rfl, rfl, .inl rfl, .inl rfl, .inr ⟨.inl ⟨x, rfl⟩, _, rfl⟩, .inl ⟨rfl, rfl⟩, .inl ⟨rfl, rfl⟩⟩ h)
  case ldAtIVx x =>
    exact .inr (Executes.retires rfl ⟨rfl, rfl, rfl, .inl rfl, .inl rfl, .inr ⟨.inr ⟨x, rfl⟩, _, rfl⟩, .inl ⟨rfl, rfl⟩, .inl ⟨rfl, rfl⟩⟩ h)
  case ldDTVx x =>
    exact .inr (Executes.retires rfl ⟨rfl, rfl, rfl, .inr ⟨x, rfl⟩, .inl rfl, .inl rfl, .inl ⟨rfl, rfl⟩, .inl ⟨rfl, rfl⟩⟩ h)
  case ldSTVx x =>
    exact .inr (Executes.retires rfl ⟨rfl, rfl, rfl, .inl rfl, .inr ⟨x, rfl⟩, .inl rfl, .inl ⟨rfl, rfl⟩, .inl ⟨rfl, rfl⟩⟩ h)
  all_goals
    exact .inr (Executes.retires rfl ⟨rfl, rfl, rfl, .inl rfl, .inl rfl, .inl rfl, .inl ⟨rfl, rfl⟩, .inl ⟨rfl, rfl⟩⟩ h)

/-! ### The step -/

theorem step_of_instr {s : State} {i : Instr} (h : s.fetchDecoded = .instr i) : step s = exec i s := by
  rw [step, h]

theorem step_of_unknown {s : State} {w : Opcode} (h : s.fetchDecoded = .unknown w) :
    step s = .next (s.advance.retire (.unknownOpcode w s.pc)) := by
  rw [step, h]; rfl

/-- What a step that answers a next state has done. -/
theorem step_next {s t : State} (h : step s = .next t) :
    (∃ i, s.fetchDecoded = .instr i ∧ exec i s = .next t) ∨
      ∃ w, s.fetchDecoded = .unknown w ∧ t = s.advance.retire (.unknownOpcode w s.pc) := by
  cases hd : s.fetchDecoded with
  | instr i => exact .inl ⟨i, rfl, by rw [← step_of_instr hd]; exact h⟩
  | unknown w =>
    rw [step_of_unknown hd] at h
    injection h with h
    exact .inr ⟨w, rfl, h.symm⟩

/-- A word placed at `pc` is what the next fetch reads, in a canonical memory. -/
theorem fetch_placeWord {s : State} (hm : s.mem.wf) (w : Opcode) : (s.placeWord w).fetch = w := by
  have h0 := Memory.read_writeBytes_same hm s.pc [hiByte w, loByte w] (by simp) 0 (by simp)
  have h1 := Memory.read_writeBytes_same hm s.pc [hiByte w, loByte w] (by simp) 1 (by simp)
  simp only [BitVec.add_zero, List.getElem_cons_zero,
    List.getElem_cons_succ] at h0 h1
  simp only [State.fetch, State.placeWord_mem, State.placeWord_pc]
  erw [h0, h1]
  exact append_of_extract (m := 8) (n := 8) w

end Sys2Proof.Machine
end

