-- ==== Sys2Proof/Laws/PerInstr.lean ====
section
/-! SUPPORT. Per-instruction statements.  Family `TableRow`: the word the encoder gives an
instruction has the fixed bits of its row of the opcode map (spec/30_encoding.md R66), and that row
is one of the map's 34. -/

namespace Sys2Proof.Laws

/-- A mask that keeps the high part whole. -/
theorem mask_high {m n : Nat} (a : BitVec m) (b k : BitVec n) :
    (a ++ b) &&& (BitVec.allOnes m ++ k) = a ++ (b &&& k) := by
  rw [BitVec.and_append, BitVec.and_allOnes]

/-- A mask that drops the high part. -/
theorem mask_low {m n : Nat} (a : BitVec m) (b k : BitVec n) :
    (a ++ b) &&& ((0 : BitVec m) ++ k) = (0 : BitVec m) ++ (b &&& k) := by
  rw [BitVec.and_append, BitVec.ofNat_eq_ofNat, BitVec.and_zero]

theorem formatFA_holds (c : BitVec 4) (a : Addr) : formatFA c a &&& 0xF000 = c ++ (0 : Addr) :=
  (mask_high c a 0).trans (congrArg (c ++ ·) BitVec.and_zero)

theorem formatFXK_holds (c : BitVec 4) (x : Reg) (k : Byte) :
    formatFXK c x k &&& 0xF000 = c ++ (0 : Addr) := formatFA_holds c (regBits x ++ k)

theorem formatFX_holds (c : BitVec 4) (x : Reg) (k : Byte) :
    formatFX c x k &&& 0xF0FF = c ++ ((0 : BitVec 4) ++ k) :=
  (mask_high c (regBits x ++ k) ((0 : BitVec 4) ++ (0xFF : Byte))).trans (congrArg (c ++ ·)
    ((mask_low (regBits x) k 0xFF).trans (congrArg ((0 : BitVec 4) ++ ·) (BitVec.and_allOnes (x := k)))))

theorem formatFXY_holds (c : BitVec 4) (x y : Reg) (n : BitVec 4) :
    formatFXY c x y n &&& 0xF00F = c ++ ((0 : BitVec 4) ++ ((0 : BitVec 4) ++ n)) :=
  (mask_high c (regBits x ++ (regBits y ++ n)) ((0 : BitVec 4) ++ ((0 : BitVec 4) ++ (0xF : BitVec 4)))).trans
    (congrArg (c ++ ·) ((mask_low (regBits x) (regBits y ++ n) _).trans
      (congrArg ((0 : BitVec 4) ++ ·) ((mask_low (regBits y) n 0xF).trans
        (congrArg ((0 : BitVec 4) ++ ·) (BitVec.and_allOnes (x := n)))))))

theorem holds_of_eq {r : OpcodeRow} {w : Opcode} (h : w &&& r.mask = r.bits) : r.holds w = true := by
  simp [OpcodeRow.holds, h]

namespace TableRow

/-- The word of `i` has the fixed bits of the row of `i`, and that row is in the opcode map. -/
def Statement (i : Instr) : Prop := i.row ∈ opcodeMap ∧ i.row.holds (encodeWord i) = true

/-- A row that stands in the map. -/
theorem inMap {r : OpcodeRow} (h : opcodeMap.contains r = true) : r ∈ opcodeMap := by
  simpa using h

theorem cls : Statement .cls := ⟨by decide, by decide⟩
theorem ret : Statement .ret := ⟨by decide, by decide⟩
theorem jpNNN (nnn : Addr) : Statement (.jpNNN nnn) :=
  ⟨inMap rfl, holds_of_eq (formatFA_holds _ nnn)⟩
theorem callNNN (nnn : Addr) : Statement (.callNNN nnn) :=
  ⟨inMap rfl, holds_of_eq (formatFA_holds _ nnn)⟩
theorem seVxNN (x : Reg) (nn : Byte) : Statement (.seVxNN x nn) :=
  ⟨inMap rfl, holds_of_eq (formatFXK_holds _ x nn)⟩
theorem sneVxNN (x : Reg) (nn : Byte) : Statement (.sneVxNN x nn) :=
  ⟨inMap rfl, holds_of_eq (formatFXK_holds _ x nn)⟩
theorem seVxVy (x y : Reg) : Statement (.seVxVy x y) :=
  ⟨inMap rfl, holds_of_eq (formatFXY_holds _ x y _)⟩
theorem ldVxNN (x : Reg) (nn : Byte) : Statement (.ldVxNN x nn) :=
  ⟨inMap rfl, holds_of_eq (formatFXK_holds _ x nn)⟩
theorem addVxNN (x : Reg) (nn : Byte) : Statement (.addVxNN x nn) :=
  ⟨inMap rfl, holds_of_eq (formatFXK_holds _ x nn)⟩
theorem ldVxVy (x y : Reg) : Statement (.ldVxVy x y) :=
  ⟨inMap rfl, holds_of_eq (formatFXY_holds _ x y _)⟩
theorem orVxVy (x y : Reg) : Statement (.orVxVy x y) :=
  ⟨inMap rfl, holds_of_eq (formatFXY_holds _ x y _)⟩
theorem andVxVy (x y : Reg) : Statement (.andVxVy x y) :=
  ⟨inMap rfl, holds_of_eq (formatFXY_holds _ x y _)⟩
theorem xorVxVy (x y : Reg) : Statement (.xorVxVy x y) :=
  ⟨inMap rfl, holds_of_eq (formatFXY_holds _ x y _)⟩
theorem addVxVy (x y : Reg) : Statement (.addVxVy x y) :=
  ⟨inMap rfl, holds_of_eq (formatFXY_holds _ x y _)⟩
theorem subVxVy (x y : Reg) : Statement (.subVxVy x y) :=
  ⟨inMap rfl, holds_of_eq (formatFXY_holds _ x y _)⟩
theorem shrVx (x y : Reg) : Statement (.shrVx x y) :=
  ⟨inMap rfl, holds_of_eq (formatFXY_holds _ x y _)⟩
theorem subnVxVy (x y : Reg) : Statement (.subnVxVy x y) :=
  ⟨inMap rfl, holds_of_eq (formatFXY_holds _ x y _)⟩
theorem shlVx (x y : Reg) : Statement (.shlVx x y) :=
  ⟨inMap rfl, holds_of_eq (formatFXY_holds _ x y _)⟩
theorem sneVxVy (x y : Reg) : Statement (.sneVxVy x y) :=
  ⟨inMap rfl, holds_of_eq (formatFXY_holds _ x y _)⟩
theorem ldINNN (nnn : Addr) : Statement (.ldINNN nnn) :=
  ⟨inMap rfl, holds_of_eq (formatFA_holds _ nnn)⟩
theorem jpV0NNN (nnn : Addr) : Statement (.jpV0NNN nnn) :=
  ⟨inMap rfl, holds_of_eq (formatFA_holds _ nnn)⟩
theorem rndVxNN (x : Reg) (nn : Byte) : Statement (.rndVxNN x nn) :=
  ⟨inMap rfl, holds_of_eq (formatFXK_holds _ x nn)⟩
theorem drwVxVyN (x y : Reg) (n : Nat) : Statement (.drwVxVyN x y n) :=
  ⟨inMap rfl, holds_of_eq (formatFXK_holds 0xD x (regBits y ++ BitVec.ofNat 4 n))⟩
theorem skpVx (x : Reg) : Statement (.skpVx x) :=
  ⟨inMap rfl, holds_of_eq (formatFX_holds _ x _)⟩
theorem sknpVx (x : Reg) : Statement (.sknpVx x) :=
  ⟨inMap rfl, holds_of_eq (formatFX_holds _ x _)⟩
theorem ldVxDT (x : Reg) : Statement (.ldVxDT x) :=
  ⟨inMap rfl, holds_of_eq (formatFX_holds _ x _)⟩
theorem ldVxK (x : Reg) : Statement (.ldVxK x) :=
  ⟨inMap rfl, holds_of_eq (formatFX_holds _ x _)⟩
theorem ldDTVx (x : Reg) : Statement (.ldDTVx x) :=
  ⟨inMap rfl, holds_of_eq (formatFX_holds _ x _)⟩
theorem ldSTVx (x : Reg) : Statement (.ldSTVx x) :=
  ⟨inMap rfl, holds_of_eq (formatFX_holds _ x _)⟩
theorem addIVx (x : Reg) : Statement (.addIVx x) :=
  ⟨inMap rfl, holds_of_eq (formatFX_holds _ x _)⟩
theorem ldFVx (x : Reg) : Statement (.ldFVx x) :=
  ⟨inMap rfl, holds_of_eq (formatFX_holds _ x _)⟩
theorem ldBVx (x : Reg) : Statement (.ldBVx x) :=
  ⟨inMap rfl, holds_of_eq (formatFX_holds _ x _)⟩
theorem ldAtIVx (x : Reg) : Statement (.ldAtIVx x) :=
  ⟨inMap rfl, holds_of_eq (formatFX_holds _ x _)⟩
theorem ldVxAtI (x : Reg) : Statement (.ldVxAtI x) :=
  ⟨inMap rfl, holds_of_eq (formatFX_holds _ x _)⟩

end TableRow

end Sys2Proof.Laws
end

