-- ==== Sys2Proof/Tests/Slice0.lean ====
section
/-! SUPPORT. The model's own tests: the smoke test of WellFormed, words written out from the spec's
encodings, one or two single steps per instruction with results from spec/95_test_vectors.md, and
a witness for the hypotheses of every statement that has some. -/

namespace Sys2Proof.Tests

open Sys2Proof Sys2Proof.Machine

/-! ### WellFormed: the one check refuses an ill-formed term -/

theorem test_wellFormed_refuses_sixteen_rows : (Instr.drwVxVyN 1 2 16).wellFormed = false := by decide
theorem test_wellFormed_accepts_fifteen_rows : (Instr.drwVxVyN 1 2 15).wellFormed = true := by decide

/-! ### Decoding: words written out bit by bit from 30_encoding.md R66 -/

theorem test_decode_F0 : decodeWord 0b0000000011100000 = .instr .cls ∧
    decodeWord 0b0000000011101110 = .instr .ret := by decide
theorem test_decode_FA : decodeWord 0b0001001000110100 = .instr (.jpNNN 0x234) ∧
    decodeWord 0b0010101010111100 = .instr (.callNNN 0xABC) ∧
    decodeWord 0b1010001100000000 = .instr (.ldINNN 0x300) ∧
    decodeWord 0b1011111111111111 = .instr (.jpV0NNN 0xFFF) := by decide
theorem test_decode_FXK : decodeWord 0b0011001100101010 = .instr (.seVxNN 3 0x2A) ∧
    decodeWord 0b0100001100101010 = .instr (.sneVxNN 3 0x2A) ∧
    decodeWord 0b0110000000001010 = .instr (.ldVxNN 0 0x0A) ∧
    decodeWord 0b0111000000000101 = .instr (.addVxNN 0 0x05) ∧
    decodeWord 0b1100000100001111 = .instr (.rndVxNN 1 0x0F) := by decide
theorem test_decode_FXY : decodeWord 0b0101000100100000 = .instr (.seVxVy 1 2) ∧
    decodeWord 0b1001000100100000 = .instr (.sneVxVy 1 2) ∧
    decodeWord 0b1000000100100000 = .instr (.ldVxVy 1 2) ∧
    decodeWord 0b1000000100100001 = .instr (.orVxVy 1 2) ∧
    decodeWord 0b1000000100100010 = .instr (.andVxVy 1 2) ∧
    decodeWord 0b1000000100100011 = .instr (.xorVxVy 1 2) := by decide
theorem test_decode_FXY_flags : decodeWord 0b1000000100100100 = .instr (.addVxVy 1 2) ∧
    decodeWord 0b1000000100100101 = .instr (.subVxVy 1 2) ∧
    decodeWord 0b1000000100100110 = .instr (.shrVx 1 2) ∧
    decodeWord 0b1000000100100111 = .instr (.subnVxVy 1 2) ∧
    decodeWord 0b1000000100101110 = .instr (.shlVx 1 2) := by decide
theorem test_decode_FXYN : decodeWord 0b1101000100101010 = .instr (.drwVxVyN 1 2 10) := by decide
theorem test_decode_FX_keys : decodeWord 0b1110000110011110 = .instr (.skpVx 1) ∧
    decodeWord 0b1110000110100001 = .instr (.sknpVx 1) := by decide
theorem test_decode_FX_timers : decodeWord 0b1111000100000111 = .instr (.ldVxDT 1) ∧
    decodeWord 0b1111000100001010 = .instr (.ldVxK 1) ∧
    decodeWord 0b1111000100010101 = .instr (.ldDTVx 1) ∧
    decodeWord 0b1111000100011000 = .instr (.ldSTVx 1) := by decide
theorem test_decode_FX_index : decodeWord 0b1111000100011110 = .instr (.addIVx 1) ∧
    decodeWord 0b1111000100101001 = .instr (.ldFVx 1) ∧
    decodeWord 0b1111000100110011 = .instr (.ldBVx 1) ∧
    decodeWord 0b1111000101010101 = .instr (.ldAtIVx 1) ∧
    decodeWord 0b1111111101100101 = .instr (.ldVxAtI 15) := by decide
/-- The unknown words of 95_test_vectors.md 2.1. -/
theorem test_decode_unknown :
    [0x0000, 0x00E1, 0x01E0, 0x0FFF, 0x5121, 0x8128, 0x812D, 0x812F, 0x912F, 0xE19F, 0xE100,
      0xF100, 0xF175, 0xF1FF].all (fun w => decodeWord w == .unknown w) = true := by decide

/-! ### Single steps (results from 95_test_vectors.md part 2) -/

/-- The registers of a list from `V[0]` on, the rest 0. -/
def regs (bs : List Byte) : Vector Byte 16 := setRegsFrom (Vector.replicate 16 0) 0 bs

/-- The reset state with some registers. -/
def withRegs (bs : List Byte) : State := { State.reset with v := regs bs }

/-- The state after one step on a word placed at `pc`, where there is one. -/
def after (w : Nat) (s : State) : Option State :=
  match step (s.withFetchWord 16 w) with
  | .next t => some t
  | .fault _ => none
  | .refused _ => none

/-- One reading of the state after one step. -/
def see {α : Type} (f : State → α) (w : Nat) (s : State) : Option α := (after w s).map f

/-- `pc` as a number. -/
def pcOf (s : State) : Nat := s.pc.toNat

/-- A register and the flag. -/
def regAndFlag (x : Reg) (s : State) : Byte × Byte := (s.getV x, s.getV 15)

theorem test_jp : see pcOf 0x1234 State.reset = some 0x234 := by decide
theorem test_call_pushes : see (fun t => (t.pc, t.sp.val, t.stack[15])) 0x2300
    { State.reset with pc := 0x250, sp := 15 } = some (0x300, 16, 0x250) := by decide
theorem test_ret_wraps : see (fun t => (t.pc, t.sp.val)) 0x00EE
    { State.reset with pc := 0x300, sp := 1, stack := State.reset.stack.set 0 0xFFE } = some (0, 0) := by decide
theorem test_offset_jump_wraps : see pcOf 0xBFFF (withRegs [0xFF]) = some 0x0FE := by decide
theorem test_se_nn : see pcOf 0x332A (withRegs [0, 0, 0, 0x2A]) = some 0x204 ∧
    see pcOf 0x332A (withRegs [0, 0, 0, 0x2B]) = some 0x202 := by decide
theorem test_sne_nn : see pcOf 0x432A (withRegs [0, 0, 0, 0x2A]) = some 0x202 ∧
    see pcOf 0x432B (withRegs [0, 0, 0, 0x2A]) = some 0x204 := by decide
theorem test_se_vy : see pcOf 0x5120 (withRegs [0, 7, 7]) = some 0x204 ∧
    see pcOf 0x5120 (withRegs [0, 7, 8]) = some 0x202 := by decide
theorem test_sne_vy : see pcOf 0x9120 (withRegs [0, 7, 8]) = some 0x204 ∧
    see pcOf 0x9120 (withRegs [0, 7, 7]) = some 0x202 := by decide
theorem test_skip_wraps : see pcOf 0x3000 { State.reset with pc := 0xFFE } = some 0x002 := by decide

theorem test_ld_nn : see (regAndFlag 0) 0x6FFF State.reset = some (0, 0xFF) := by decide
theorem test_add_nn_wraps_without_flag : see (regAndFlag 0) 0x7001 (withRegs [0xFF]) = some (0, 0) := by decide
theorem test_ld_vy : see (regAndFlag 1) 0x8120 (withRegs [0, 0, 0x5C]) = some (0x5C, 0) := by decide
theorem test_or : see (regAndFlag 1) 0x8121 (withRegs [0, 0xF0, 0x3C]) = some (0xFC, 0) := by decide
theorem test_and : see (regAndFlag 1) 0x8122 (withRegs [0, 0xF0, 0x3C]) = some (0x30, 0) := by decide
theorem test_xor : see (regAndFlag 1) 0x8123 (withRegs [0, 0xF0, 0x3C]) = some (0xCC, 0) := by decide
theorem test_add_carry : see (regAndFlag 1) 0x8124 (withRegs [0, 0xFF, 0x01]) = some (0, 1) := by decide
theorem test_add_into_VF_leaves_the_flag : see (regAndFlag 15) 0x8FF4
    { State.reset with v := State.reset.v.set 15 0x90 } = some (1, 1) := by decide
theorem test_sub_borrow : see (regAndFlag 1) 0x8125 (withRegs [0, 3, 5]) = some (0xFE, 0) := by decide
theorem test_sub_equal_is_no_borrow : see (regAndFlag 1) 0x8125 (withRegs [0, 7, 7]) = some (0, 1) := by decide
theorem test_subn : see (regAndFlag 1) 0x8127 (withRegs [0, 3, 5]) = some (2, 1) := by decide
theorem test_shr_ignores_y : see (regAndFlag 1) 0x8126 (withRegs [0, 0x05, 0xF0]) = some (0x02, 1) := by decide
theorem test_shl : see (regAndFlag 1) 0x810E (withRegs [0, 0x81]) = some (0x02, 1) := by decide

theorem test_ld_i : see (fun t => t.i) 0xAFFF State.reset = some 0xFFF := by decide
theorem test_add_i_overflows : see (fun t => (t.i, t.getV 15)) 0xF11E
    { withRegs [0, 0xFF] with i := 0xFFF } = some (0x0FE, 1) := by decide
theorem test_add_i_clears_flag : see (fun t => (t.i, t.getV 15)) 0xFF1E
    { State.reset with i := 0x100, v := State.reset.v.set 15 7 } = some (0x107, 0) := by decide
theorem test_ld_f_low_nibble : see (fun t => t.i) 0xF229 (withRegs [0, 0, 0x1A]) = some 0x032 := by decide
theorem test_ld_b_wraps : see (fun t => (t.mem.read 0xFFE, t.mem.read 0xFFF, t.mem.read 0, t.i)) 0xF033
    { withRegs [123] with i := 0xFFE } = some (1, 2, 3, 0xFFE) := by decide
theorem test_store_wraps : see (fun t => (t.mem.read 0xFFF, t.mem.read 0, t.i, t.getV 15)) 0xF155
    { withRegs [0x11, 0x22] with i := 0xFFF } = some (0x11, 0x22, 0x001, 0) := by decide
theorem test_load_reads_the_font : see (fun t => (t.getV 0, t.getV 1, t.getV 2, t.i)) 0xF165
    State.reset = some (0xF0, 0x90, 0, 2) := by decide
theorem test_load_all_sixteen : see (fun t => (t.getV 15, t.i)) 0xFF65
    { State.reset with i := 0x400, mem := [(0x40F, 0x1F)] } = some (0x1F, 0x410) := by decide

/-- The state before a one-row draw at column 62 of a sprite byte at address 0x300. -/
def beforeDraw (b : Byte) : State := { withRegs [62, 31] with i := 0x300, mem := [(0x300, b), (0x301, b)] }

theorem test_cls : see (fun t => (t.disp.get 3 2, t.drawPending)) 0x00E0
    { State.reset with disp := State.reset.disp.put 3 2 true } = some (false, true) := by decide
theorem test_draw_wraps_both_edges : see (fun t => (t.disp.get 62 31, t.disp.get 5 0, t.disp.get 6 0, t.getV 15))
    0xD012 (beforeDraw 0xFF) = some (true, true, false, 0) := by decide
theorem test_draw_collides : see (fun t => (t.disp.get 62 31, t.disp.get 63 31, t.getV 15, t.drawPending)) 0xD011
    { beforeDraw 0xC0 with disp := blankDisplay.put 63 31 true } = some (true, false, 1, true) := by decide

/-- A latch with one key pressed. -/
def pressing (k : KeyCode) (s : State) : State := s.setKey k true

theorem test_skp_low_nibble : see pcOf 0xE29E (pressing 5 (withRegs [0, 0, 0x15])) = some 0x204 ∧
    see pcOf 0xE29E (withRegs [0, 0, 0x05]) = some 0x202 := by decide
theorem test_sknp : see pcOf 0xE2A1 (withRegs [0, 0, 0x05]) = some 0x204 ∧
    see pcOf 0xE2A1 (pressing 5 (withRegs [0, 0, 0x05])) = some 0x202 := by decide
theorem test_key_wait_stalls : see (fun t => (t.pc, t.wait, t.dt, t.report)) 0xF30A
    { State.reset with dt := 9 } = some (0x200, true, 9, .ok) := by decide
theorem test_key_wait_takes_the_lowest : see (fun t => (t.getV 3, t.pc, t.wait, t.dt)) 0xF30A
    (pressing 3 (pressing 10 { State.reset with dt := 9 })) = some (3, 0x202, false, 8) := by decide
theorem test_ld_vx_dt : see (fun t => (t.getV 4, t.dt)) 0xF407 { State.reset with dt := 0x10 } =
    some (0x10, 0x0F) := by decide
theorem test_ld_dt : see (fun t => t.dt) 0xF015 (withRegs [2]) = some 1 := by decide
theorem test_ld_st_beeps_at_one : see (fun t => (t.st, t.soundPending)) 0xF018 (withRegs [1]) =
    some (0, true) ∧ see (fun t => (t.st, t.soundPending)) 0xF018 (withRegs [2]) = some (1, false) := by decide
theorem test_rnd : see (fun t => t.getV 1) 0xC10F { State.reset with rndIn := some 0xAB } = some 0x0B := by decide

theorem test_unknown_word_is_reported : see (fun t => (t.pc, t.dt, t.report)) 0x5121
    { State.reset with dt := 3 } = some (0x202, 2, .unknownOpcode 0x5121 0x200) := by decide
theorem test_fetch_wraps : ({ State.reset with pc := 0xFFF, mem := [(0xFFF, 0x12)] } : State).fetch = 0x12F0 := by
  decide
theorem test_decodeTableWord : decodeTableWord 16 0xD12A = some (.drwVxVyN 1 2 10) ∧
    decodeTableWord 16 0x0000 = none := by decide

/-! ### The driver's operations (95_test_vectors.md 2.7) -/

theorem test_press_twice : (pressing 7 (pressing 7 State.reset)).pressed 7 = true := by decide
theorem test_load_program : (State.reset.loadProgram [0x60, 0x0A, 0x70, 0x05]).1.mem =
    [(0x200, 0x60), (0x201, 0x0A), (0x202, 0x70), (0x203, 0x05)] := by decide
theorem test_condition_codes : Condition.ok.code = 0 ∧ (Condition.unknownOpcode 0 0).code = 1 ∧
    (Condition.stackOverflow 0 0).code = 2 ∧ (Condition.stackUnderflow 0 0).code = 3 ∧
    Condition.capacityError.code = 4 := by decide

/-! ### Witnesses: for every statement with hypotheses, operands and a state that meet them

A range is met at its ends; a statement with several clauses has each clause met. -/

/-- A stack with `n` entries in use. -/
def withSp (n : Fin 17) : State := { State.reset with sp := n }

/-- A state in which a key-wait has stalled. -/
def stalled : State := { State.reset with mem := [(0x200, 0xF3), (0x201, 0x0A)], wait := true }

/-- A state whose next instruction stores two registers into the two bytes that follow it. -/
def storesAhead : State := { withRegs [0x12, 0x34] with i := 0x202 }

theorem witness_DecodeOfEncodeIsTheInstruction :
    (Instr.drwVxVyN 15 15 15).wellFormed = true ∧ (Instr.drwVxVyN 0 0 0).wellFormed = true := by decide
theorem witness_EncodeOfDecodeIsTheWord :
    decodeWord 0x00E0 = .instr .cls ∧ decodeWord 0xFF65 = .instr (.ldVxAtI 15) := by decide
theorem witness_WordDecodesExactlyWhereARowHolds :
    (∃ i, decodeWord 0xDFFF = .instr i) ∧ ¬ ∃ r ∈ opcodeMap, r.holds 0xF166 = true :=
  ⟨⟨_, rfl⟩, by decide⟩
theorem witness_OpcodeMapRowsAreDisjoint : ∃ r ∈ opcodeMap, r.holds 0x8FFE = true := by decide
theorem witness_StepRunsTheDecodedInstruction :
    decodeBytes (stalled.mem.read stalled.pc) (stalled.mem.read (stalled.pc + 1)) = .instr (.ldVxK 3) := by decide
theorem witness_StepSkipsAndReportsAnUnknownWord :
    decodeBytes (State.reset.mem.read 0x200) (State.reset.mem.read 0x201) = .unknown 0x0000 := by decide
theorem witness_StepStopsOnlyOnAStackFault :
    step ((withSp 16).withFetchWord 16 0x2FFF) = .fault (.stackOverflow 0x2FFF 0x200) ∧
      step ((withSp 0).withFetchWord 16 0x00EE) = .fault (.stackUnderflow 0x00EE 0x200) := ⟨rfl, rfl⟩
theorem witness_OnlyRandomReadsTheRandomInput : ∀ (x : Reg) (nn : Byte), Instr.cls ≠ .rndVxNN x nn := by
  intro _ _ h; cases h
theorem witness_NoInstructionReadsTheSoundTimer : ∃ t, exec .cls State.reset = .next t := ⟨_, rfl⟩
theorem witness_EveryCompletedInstructionTicksBothTimers :
    (∃ t, exec .cls { State.reset with st := 1 } = .next t) ∧
      (∀ x, Instr.cls ≠ .ldDTVx x) ∧ (∀ x, Instr.cls ≠ .ldSTVx x) ∧
      (∃ t, exec (.ldVxK 3) (pressing 15 State.reset) = .next t) ∧
      ∃ k, (pressing 15 State.reset).pressed k = true :=
  ⟨⟨_, rfl⟩, fun _ h => (nomatch h), fun _ h => (nomatch h), ⟨_, rfl⟩, by decide⟩
theorem witness_EveryOtherInstructionAdvancesByTwo :
    Instr.cls.movesPc = false ∧ ∃ t, exec .cls { State.reset with pc := 0xFFF } = .next t := ⟨rfl, _, rfl⟩
theorem witness_WaitIsSetExactlyByAStall :
    (∃ t, exec (.ldVxK 3) State.reset = .next t ∧ t.wait = true) ∧
      ∃ t, exec .cls stalled = .next t ∧ t.wait = false := ⟨⟨_, rfl, rfl⟩, ⟨_, rfl, rfl⟩⟩
theorem witness_OnlyTheFlagInstructionsWriteTheFlag :
    (Instr.addVxNN 14 1).writesFlag = false ∧ (Instr.addVxNN 14 1).destIsVF = false ∧
      ∃ t, exec (.addVxNN 14 1) State.reset = .next t := ⟨rfl, rfl, _, rfl⟩
theorem witness_StepsKeepTheLatchAndNeverClearAPendingFlag :
    ∃ t, step (({ State.reset with soundPending := true } : State).withFetchWord 16 0x00E0) = .next t ∧
      t.soundPending = true ∧ t.drawPending = true := ⟨_, rfl, rfl, rfl⟩
theorem witness_OnlyTheirWritersChangeMemoryStackAndDisplay :
    (∃ t, exec (.ldINNN 0) State.reset = .next t) ∧ Instr.ldINNN 0 ≠ .ret ∧ Instr.ldINNN 0 ≠ .cls ∧
      (∀ n, Instr.ldINNN 0 ≠ .callNNN n) ∧ (∀ x y n, Instr.ldINNN 0 ≠ .drwVxVyN x y n) ∧
      (∀ x, Instr.ldINNN 0 ≠ .ldBVx x) ∧ ∀ x, Instr.ldINNN 0 ≠ .ldAtIVx x :=
  ⟨⟨_, rfl⟩, nofun, nofun, nofun, nofun, nofun, nofun⟩
theorem witness_ReturnPopsAndGoesPastTheCall :
    (withSp 1).sp.val = (0 : Fin 16).val + 1 ∧ (withSp 16).sp.val = (15 : Fin 16).val + 1 := by decide
theorem witness_StackFaultsAreRaisedWithWordAndAddress :
    (withSp 0).sp.val = 0 ∧ (withSp 16).sp.val = 16 := by decide
theorem witness_CallPushesItsAddressAndJumps :
    (withSp 0).sp.val = (0 : Fin 16).val ∧ (withSp 15).sp.val = (15 : Fin 16).val := by decide
theorem witness_CallThenReturnGoesPastTheCall : (withSp 0).sp.val < 16 ∧ (withSp 15).sp.val < 16 := by decide
theorem witness_DecimalDigitsGoToThreeBytesAtIndex :
    ({ State.reset with i := 0xFFE, mem := [(0, 0x11), (0xFFF, 0x22)] } : State).mem.wf := by decide
theorem witness_BlockStoreWritesRegistersUpToX :
    ({ State.reset with i := 0xFFF, mem := [(0x00E, 0x11), (0xFFF, 0x22)] } : State).mem.wf ∧
      (0 : Reg) ≤ 15 ∧ (15 : Reg) ≤ 15 := by decide
theorem witness_BlockLoadFillsRegistersUpToX : (0 : Reg) ≤ 0 ∧ (0 : Reg) < 15 ∧ (15 : Reg) ≤ 15 := by decide
theorem witness_BlockStoreThenLoadRestoresTheRegisters :
    ({ State.reset with mem := [(0xFFF, 0x22)] } : State).mem.wf ∧ (7 : Reg) ≤ 7 ∧ (7 : Reg) < 8 := by decide
theorem witness_TheNextStepRunsWhatAStoreWrote :
    storesAhead.mem.wf ∧ 1 ≤ (1 : Reg).val ∧
      (∃ t, exec (.ldAtIVx 1) storesAhead = .next t ∧ t.pc = storesAhead.i) ∧
      decodeBytes (storesAhead.getV 0) (storesAhead.getV 1) = .instr (.jpNNN 0x234) :=
  ⟨by decide, by decide, ⟨_, rfl, rfl⟩, by decide⟩
theorem witness_AReadReturnsTheLastByteWritten : Memory.wf [(0, 0x00), (0x200, 0x60), (0xFFF, 0x01)] := by decide
theorem witness_DrawXorsTheSpriteAndFlagsCollision : 0 < 16 ∧ 15 < 16 := by decide
theorem witness_DrawingTwiceRestoresTheDisplay :
    ∃ t, exec (.drwVxVyN 0 1 15) (beforeDraw 0xC0) = .next t ∧ t.getV 0 = (beforeDraw 0xC0).getV 0 ∧
      t.getV 1 = (beforeDraw 0xC0).getV 1 := ⟨_, rfl, by decide, by decide⟩
theorem witness_KeySkipsTestTheLatch :
    ((withRegs [0xF0]).getV 0).toNat % 16 = (0 : KeyCode).val ∧
      ((withRegs [0xFF]).getV 0).toNat % 16 = (15 : KeyCode).val := by decide
theorem witness_KeyWaitStallsWithoutAKey : ∀ k, State.reset.pressed k = false := by decide
theorem witness_KeyWaitStoresTheLowestKey :
    (pressing 0 State.reset).pressed 0 = true ∧ (∀ j < 0, (pressing 0 State.reset).pressed j = false) ∧
      (pressing 15 State.reset).pressed 15 = true ∧
      ∀ j < 15, (pressing 15 State.reset).pressed j = false := by decide
theorem witness_APressEndsTheKeyWait : ∀ j, stalled.pressed j = false := by decide
theorem witness_EveryStepKeepsTheMemoryCanonical :
    (storesAhead.withFetchWord 16 0xF155).Inv ∧ ∃ t, step (storesAhead.withFetchWord 16 0xF155) = .next t :=
  ⟨by unfold State.Inv; decide, _, rfl⟩
theorem witness_EveryStepKeepsWaitHonest :
    stalled.WaitHonest ∧ stalled.wait = true ∧ ∃ t, step stalled = .next t ∧ t.wait = true :=
  ⟨fun _ => ⟨⟨3, by decide⟩, by decide, rfl⟩, rfl, _, rfl, rfl⟩
theorem witness_OnlyInitialiseIsAcceptedAtFirst : DriverOp.step 0 ≠ .init := by decide
theorem witness_LoadProgramIsAllOrNothing :
    State.reset.mem.wf ∧ 3584 < (List.replicate 3585 (0 : Byte)).length ∧
      (List.replicate 3584 (0 : Byte)).length ≤ 3584 ∧ ([] : List Byte).length ≤ 3584 ∧
      ((0x1FF : Addr).toNat < 512 ∨ 512 + 1 ≤ (0x1FF : Addr).toNat) ∧
      ((0x201 : Addr).toNat < 512 ∨ 512 + 1 ≤ (0x201 : Addr).toNat) :=
  ⟨by decide, by rw [List.length_replicate]; decide, by rw [List.length_replicate], by decide, by decide, by decide⟩
theorem witness_KeyOperationsWriteOneLatchBit : 16 ≤ 16 ∧ 15 < 16 ∧ 0 < 16 := by decide
theorem witness_AFatalResultRepeatsItself :
    ∃ b c, Block.apply (.ready ((withSp 0).withFetchWord 16 0x00EE) false) (.step 0) = .next (b, .result c) ∧
      c.fatal = true := ⟨_, _, rfl, rfl⟩
theorem witness_TheDriversByteIsTheRandomInput :
    (State.reset.withFetchWord 16 0xC10F).fetchDecoded = .instr (.rndVxNN 1 0x0F) := by decide
theorem witness_RandomIsTheInputAndTheImmediate :
    ({ State.reset with rndIn := some 0xFF } : State).rndIn = some 0xFF := rfl
/-- For `AddRegistersWritesSumThenCarry`, `SubtractionsWriteDifferenceThenNoBorrow` and
`ShiftsMoveRegisterXByOnePlace`: their clause on a destination other than register 15. -/
theorem witness_DestinationOtherThanTheFlag : (0 : Reg) ≠ 15 ∧ (14 : Reg) ≠ 15 := by decide

end Sys2Proof.Tests
end

section
/-! SUPPORT. Proofs of the statements about the state of 10_state.md: the canonical memory, `WAIT`
and the report, the random input, the flag register, the pending flags, and the fields that only
their writers change. -/

namespace Sys2Proof.Machine

/-! ### What a step that answers a next state has done -/

/-- `step_next` and `exec_next` together: a stall, an executed instruction, or an unknown word. -/
theorem step_next_cases {s t : State} (h : step s = .next t) :
    (∃ x, s.fetchDecoded = .instr (.ldVxK x) ∧ (∀ k, s.pressed k = false) ∧
        t = { s with wait := true, report := .ok }) ∨
      (∃ i u, s.fetchDecoded = .instr i ∧ exec i s = .next t ∧ Executes i s u ∧ t = u.retire .ok) ∨
      ∃ w, s.fetchDecoded = .unknown w ∧ t = s.advance.retire (.unknownOpcode w s.pc) := by
  obtain ⟨i, hd, he⟩ | hunknown := step_next h
  · obtain ⟨x, rfl, hrel, rfl⟩ | ⟨u, hx, rfl⟩ := exec_next he
    · exact .inl ⟨x, hd, hrel, rfl⟩
    · exact .inr (.inl ⟨i, u, hd, he, hx, rfl⟩)
  · exact .inr (.inr hunknown)

/-! ### The canonical memory -/

/-- An instruction changes memory through `writeBytes` alone, which keeps the canonical form. -/
theorem Executes.inv {i : Instr} {s u : State} (hx : Executes i s u) (hs : s.Inv) : u.Inv := by
  unfold State.Inv
  obtain hsame | ⟨-, bs, hwrite⟩ := hx.mem
  · rw [hsame]; exact hs
  · rw [hwrite]; exact Memory.wf_writeBytes hs s.i bs

theorem step_keeps_inv {s t : State} (hs : s.Inv) (h : step s = .next t) : t.Inv := by
  obtain ⟨x, -, -, rfl⟩ | ⟨i, u, -, -, hx, rfl⟩ | ⟨w, -, rfl⟩ := step_next_cases h
  · exact hs
  · exact hx.inv hs
  · exact hs

/-- Settles O52: a step writes memory by `writeBytes` or not at all. -/
theorem everyStepKeepsTheMemoryCanonical : Obligations.EveryStepKeepsTheMemoryCanonical :=
  fun _ _ => step_keeps_inv

/-! ### `WAIT` and the report -/

/-- `WAIT` is honest after every step, whatever it was before: only a stall sets it, and a stall
leaves `pc`, memory and the latch as they were. -/
theorem waitHonest_of_step {s t : State} (h : step s = .next t) : t.WaitHonest := by
  intro hw
  obtain ⟨x, hd, hrel, rfl⟩ | ⟨i, u, -, -, -, rfl⟩ | ⟨w, -, rfl⟩ := step_next_cases h
  · exact ⟨⟨x, hd⟩, hrel, rfl⟩
  · simp at hw
  · simp at hw

/-- Settles O53: the property does not even need to hold before the step. -/
theorem everyStepKeepsWaitHonest : Obligations.EveryStepKeepsWaitHonest :=
  fun _ _ _ => waitHonest_of_step

/-- Settles O14: an instruction that retires leaves `WAIT` 0, and a key-wait with every key released
stalls and does not retire. -/
theorem waitIsSetExactlyByAStall : Obligations.WaitIsSetExactlyByAStall := by
  intro i s t h
  obtain ⟨x, rfl, hrel, rfl⟩ | ⟨u, -, rfl⟩ := exec_next h
  · exact ⟨⟨fun _ => ⟨⟨x, rfl⟩, hrel⟩, fun _ => rfl⟩, rfl⟩
  · refine ⟨⟨fun hw => by simp at hw, ?_⟩, rfl⟩
    rintro ⟨⟨x, rfl⟩, hrel⟩
    have hstall : exec (.ldVxK x) s = .next { s with wait := true, report := .ok } :=
      execLdVxK_of_none hrel x
    rw [hstall] at h
    injection h with h
    exact (congrArg State.wait h).symm

/-! ### The branches of the three meanings that have some, as equations -/

theorem execLdVxK_of_lowestKey_none {s : State} (h : s.lowestKey = none) (x : Reg) :
    execLdVxK x s = stall s := by
  rw [execLdVxK, h]

theorem execLdVxK_of_lowestKey_some {s : State} {k : KeyCode} (h : s.lowestKey = some k) (x : Reg) :
    execLdVxK x s = writeReg x (BitVec.ofNat 8 k.val) s := by
  rw [execLdVxK, h]

theorem sp_eq_sixteen_of_not_lt {s : State} (h : ¬ s.sp.val < 16) : s.sp.val = 16 := by
  have := s.sp.isLt
  omega

/-! ### Noninterference -/

/-- Other values in the fields that no instruction but `RND` reads: `WAIT`, the report, and the random
input with its counter (log entries 14, 15 and 19). -/
def State.withUnread (s : State) (b : Bool) (c : Condition) (r : Option Byte) (d : Nat) : State :=
  { s with wait := b, report := c, rndIn := r, draws := d }

/-- `RND` apart, an instruction overwrites `WAIT` and the report before anything reads them and
carries the random input through: what `RET`, `CALL` and the key-wait branch on is `SP` and the latch. -/
theorem exec_withUnread {i : Instr} (hi : ∀ x nn, i ≠ .rndVxNN x nn) (s : State) (b : Bool) (c : Condition)
    (r : Option Byte) (d : Nat) :
    exec i (s.withUnread b c r d) = mapNext (fun t => { t with rndIn := r, draws := d }) (exec i s) := by
  cases i
  case rndVxNN x nn => exact absurd rfl (hi x nn)
  case ret =>
    change execRet _ = mapNext _ (execRet s)
    by_cases h : 0 < s.sp.val
    · rw [execRet_of_pos h]
      exact execRet_of_pos (s := s.withUnread b c r d) h
    · have h : s.sp.val = 0 := by omega
      rw [execRet_of_empty h]
      exact execRet_of_empty (s := s.withUnread b c r d) h
  case callNNN nnn =>
    change execCallNNN nnn _ = mapNext _ (execCallNNN nnn s)
    by_cases h : s.sp.val < 16
    · rw [execCallNNN_of_lt h]
      exact execCallNNN_of_lt (s := s.withUnread b c r d) h nnn
    · have h := sp_eq_sixteen_of_not_lt h
      rw [execCallNNN_of_full h]
      exact execCallNNN_of_full (s := s.withUnread b c r d) h nnn
  case ldVxK x =>
    change execLdVxK x _ = mapNext _ (execLdVxK x s)
    cases h : s.lowestKey with
    | none =>
      rw [execLdVxK_of_lowestKey_none h]
      exact execLdVxK_of_lowestKey_none (s := s.withUnread b c r d) h x
    | some k =>
      rw [execLdVxK_of_lowestKey_some h]
      exact execLdVxK_of_lowestKey_some (s := s.withUnread b c r d) h x
  all_goals rfl

/-- Settles O10: `exec_withUnread` with `WAIT` and the report as they stand. -/
theorem onlyRandomReadsTheRandomInput : Obligations.OnlyRandomReadsTheRandomInput :=
  fun _ s r d hi => exec_withUnread hi s s.wait s.report r d

/-- No instruction reads `WAIT` or the report: `RND` by its equation, every other by the two uses of
`exec_withUnread` that keep the random input. -/
theorem exec_wait_report (i : Instr) (s : State) (b : Bool) (c : Condition) :
    exec i { s with wait := b, report := c } = exec i s := by
  by_cases hrnd : ∃ x nn, i = .rndVxNN x nn
  · obtain ⟨x, nn, rfl⟩ := hrnd
    rfl
  · have hi : ∀ x nn, i ≠ .rndVxNN x nn := fun x nn e => hrnd ⟨x, nn, e⟩
    exact (exec_withUnread hi s b c s.rndIn s.draws).trans
      (exec_withUnread hi s s.wait s.report s.rndIn s.draws).symm

/-- Settles O9: the fetch reads `pc` and memory, and no instruction reads `WAIT` or the report. -/
theorem noStepReadsWaitOrTheReport : Obligations.NoStepReadsWaitOrTheReport := by
  intro s b c
  have hfetch : State.fetchDecoded { s with wait := b, report := c } = s.fetchDecoded := rfl
  cases hd : s.fetchDecoded with
  | instr i => rw [step_of_instr (hfetch.trans hd), step_of_instr hd, exec_wait_report]
  | unknown w => rw [step_of_unknown (hfetch.trans hd), step_of_unknown hd]; rfl

/-! ### The pending flags -/

theorem drawPending_of_exec_cls {s t : State} (h : exec .cls s = .next t) : t.drawPending = true := by
  rw [complete_eq_next.1 h]; rfl

theorem drawPending_of_exec_drwVxVyN {x y : Reg} {n : Nat} {s t : State}
    (h : exec (.drwVxVyN x y n) s = .next t) : t.drawPending = true := by
  rw [complete_eq_next.1 h]; rfl

/-- An instruction leaves `DRAW_PENDING` 1 exactly where it was 1 or the instruction shows a display. -/
theorem exec_drawPending_iff {i : Instr} {s t : State} (h : exec i s = .next t) :
    t.drawPending = true ↔ s.drawPending = true ∨ i = .cls ∨ ∃ x y n, i = .drwVxVyN x y n := by
  constructor
  · intro ht
    obtain ⟨x, -, -, rfl⟩ | ⟨u, hx, rfl⟩ := exec_next h
    · exact .inl ht
    · obtain ⟨-, hsame⟩ | ⟨hwriter, -⟩ := hx.disp
      · exact .inl (hsame ▸ ht)
      · exact .inr hwriter
  · rintro (hs | rfl | ⟨x, y, n, rfl⟩)
    · obtain ⟨x, -, -, rfl⟩ | ⟨u, hx, rfl⟩ := exec_next h
      · exact hs
      · obtain ⟨-, hsame⟩ | ⟨-, hset⟩ := hx.disp
        · exact hsame.trans hs
        · exact hset
    · exact drawPending_of_exec_cls h
    · exact drawPending_of_exec_drwVxVyN h

/-- The same for the fetched instruction of a step; an unknown word leaves the flag as it was. -/
theorem step_drawPending_iff {s t : State} (h : step s = .next t) :
    t.drawPending = true ↔ s.drawPending = true ∨ s.fetchDecoded = .instr .cls ∨
      ∃ x y n, s.fetchDecoded = .instr (.drwVxVyN x y n) := by
  obtain ⟨i, hd, he⟩ | ⟨w, hd, rfl⟩ := step_next h
  · simp [exec_drawPending_iff he, hd]
  · simp [hd]

theorem step_key {s t : State} (h : step s = .next t) : t.key = s.key := by
  obtain ⟨x, -, -, rfl⟩ | ⟨i, u, -, -, hx, rfl⟩ | ⟨w, -, rfl⟩ := step_next_cases h
  · rfl
  · exact hx.key
  · rfl

/-- The tick is the only writer of `SOUND_PENDING`, and it only sets it. -/
theorem step_keeps_soundPending {s t : State} (hs : s.soundPending = true) (h : step s = .next t) :
    t.soundPending = true := by
  obtain ⟨x, -, -, rfl⟩ | ⟨i, u, -, -, hx, rfl⟩ | ⟨w, -, rfl⟩ := step_next_cases h
  · exact hs
  · simp [hx.soundPending, hs]
  · simp [hs]

/-- Settles O16: from the three lemmas on the latch and the two flags. -/
theorem stepsKeepTheLatchAndNeverClearAPendingFlag :
    Obligations.StepsKeepTheLatchAndNeverClearAPendingFlag :=
  fun _ _ h => ⟨step_key h, fun hs => step_keeps_soundPending hs h, step_drawPending_iff h⟩

/-! ### Memory, stack and display -/

/-- Settles O17: `Executes` names the writer wherever one of these fields may change. -/
theorem onlyTheirWritersChangeMemoryStackAndDisplay :
    Obligations.OnlyTheirWritersChangeMemoryStackAndDisplay := by
  intro i s t h
  obtain ⟨x, -, -, rfl⟩ | ⟨u, hx, rfl⟩ := exec_next h
  · exact ⟨fun _ _ => rfl, fun _ _ => ⟨rfl, rfl⟩, fun _ _ => rfl⟩
  · refine ⟨fun hldB hldAtI => ?_, fun hcall hret => ?_, fun hcls hdrw => ?_⟩
    · obtain hsame | ⟨⟨x, hi⟩ | ⟨x, hi⟩, -⟩ := hx.mem
      · exact hsame
      · exact absurd hi (hldB x)
      · exact absurd hi (hldAtI x)
    · obtain hsame | hi | ⟨nnn, hi⟩ := hx.stack
      · exact hsame
      · exact absurd hi hret
      · exact absurd hi (hcall nnn)
    · obtain ⟨hsame, -⟩ | ⟨hi | ⟨x, y, n, hi⟩, -⟩ := hx.disp
      · exact hsame
      · exact absurd hi hcls
      · exact absurd hi (hdrw x y n)

/-! ### The flag register -/

theorem getV_of_complete {s t : State} (h : complete s = .next t) (r : Reg) : t.getV r = s.getV r := by
  rw [complete_eq_next.1 h, getV_retire]

/-- A one-register write leaves every other register. -/
theorem getV_of_writeReg {x r : Reg} {b : Byte} {s t : State} (hr : r ≠ x)
    (h : writeReg x b s = .next t) : t.getV r = s.getV r := by
  rw [getV_of_complete h, getV_advance, getV_setV_other s b hr]

theorem getV_of_execRet {s t : State} (h : execRet s = .next t) (r : Reg) : t.getV r = s.getV r := by
  by_cases hsp : 0 < s.sp.val
  · rw [execRet_of_pos hsp] at h
    exact getV_of_complete h r
  · rw [execRet_of_empty (by omega)] at h
    cases h

theorem getV_of_execCallNNN {nnn : Addr} {s t : State} (h : execCallNNN nnn s = .next t) (r : Reg) :
    t.getV r = s.getV r := by
  by_cases hsp : s.sp.val < 16
  · rw [execCallNNN_of_lt hsp] at h
    exact getV_of_complete h r
  · rw [execCallNNN_of_full (sp_eq_sixteen_of_not_lt hsp)] at h
    cases h

/-- A key-wait writes its own register or, where it stalls, none. -/
theorem getV_of_execLdVxK {x r : Reg} {s t : State} (hr : r ≠ x) (h : execLdVxK x s = .next t) :
    t.getV r = s.getV r := by
  cases hk : s.lowestKey with
  | none =>
    rw [execLdVxK_of_lowestKey_none hk] at h
    rw [stall_eq_next.1 h]; rfl
  | some k =>
    rw [execLdVxK_of_lowestKey_some hk] at h
    exact getV_of_writeReg hr h

/-- A block load leaves the registers above its field X. -/
theorem getV_of_execLdVxAtI {x r : Reg} {s t : State} (hr : x < r) (h : execLdVxAtI x s = .next t) :
    t.getV r = s.getV r := by
  have hlen : (s.loadAtI (x.val + 1)).length ≤ r.val := by
    rw [State.loadAtI, Memory.length_readBytes]; exact hr
  rw [getV_of_complete h, getV_advance, getV_bumpI, State.getV, getElem_setRegsFrom]
  simp [List.getElem?_eq_none hlen, State.getV]

/-- Settles O15: an instruction outside the table of R13 writes no register, or the one its field X
names, or a block up to it. -/
theorem onlyTheFlagInstructionsWriteTheFlag : Obligations.OnlyTheFlagInstructionsWriteTheFlag := by
  intro i s t hflag hdest h
  cases i
  case ret => exact getV_of_execRet h 15
  case callNNN nnn => exact getV_of_execCallNNN h 15
  case ldVxK x => exact getV_of_execLdVxK (Ne.symm (of_decide_eq_false hdest)) h
  case ldVxAtI x =>
    have hx : x < 15 := lt_of_le_of_ne (Fin.le_last x) (of_decide_eq_false hdest)
    exact getV_of_execLdVxAtI hx h
  case rndVxNN x _ =>
    exact getV_of_writeReg (s := { s with draws := s.draws + 1 }) (Ne.symm (of_decide_eq_false hdest)) h
  case addVxVy | subVxVy | shrVx | subnVxVy | shlVx | addIVx | drwVxVyN => cases hflag
  case ldVxNN x _ | addVxNN x _ | ldVxVy x _ | orVxVy x _ | andVxVy x _ | xorVxVy x _ | ldVxDT x =>
    exact getV_of_writeReg (Ne.symm (of_decide_eq_false hdest)) h
  all_goals exact getV_of_complete h 15

end Sys2Proof.Machine
end

section
/-! SUPPORT. Proofs of the statements about memory of 20_memory.md: a read after a write, and the
fetch of bytes that a block store left. -/

namespace Sys2Proof.Machine

/-! ### A read after a write -/

/-- Settles O39: the address written, every other address, and the canonical form. -/
theorem aReadReturnsTheLastByteWritten : Obligations.AReadReturnsTheLastByteWritten := by
  intro m a c b hm
  refine ⟨?_, Memory.wf_write hm a b⟩
  split
  next heq => rw [heq]; exact Memory.read_write_same hm a b
  next hne => exact Memory.read_write_other m b (Ne.symm hne)

/-! ### A block store, and the fetch after it -/

theorem mem_of_exec_ldAtIVx {x : Reg} {s t : State} (h : exec (.ldAtIVx x) s = .next t) :
    t.mem = s.mem.writeBytes s.i (s.regsUpTo x) := by
  rw [complete_eq_next.1 h]; rfl

/-- A block store leaves register `k` at `I + k`, modulo 4096, for every `k` up to its field X (R144). -/
theorem read_of_exec_ldAtIVx {x k : Reg} {s t : State} (hm : s.mem.wf) (hk : k.val ≤ x.val)
    (h : exec (.ldAtIVx x) s = .next t) : t.mem.read (s.i + BitVec.ofNat 12 k.val) = s.getV k := by
  have hlen : k.val < (s.regsUpTo x).length := by rw [length_regsUpTo]; omega
  have hmax : (s.regsUpTo x).length ≤ 4096 := by rw [length_regsUpTo]; omega
  rw [mem_of_exec_ldAtIVx h, Memory.read_writeBytes_same hm s.i _ hmax k.val hlen, getElem_regsUpTo]
  rfl

/-- Settles O38: the fetch of the next step reads registers 0 and 1 where the store left them. -/
theorem theNextStepRunsWhatAStoreWrote : Obligations.TheNextStepRunsWhatAStoreWrote := by
  intro x s t i hm hx h hpc hdec
  have hhi : t.mem.read t.pc = s.getV 0 := by
    simpa [hpc] using read_of_exec_ldAtIVx (k := 0) hm (Nat.zero_le _) h
  have hlo : t.mem.read (t.pc + 1) = s.getV 1 := by
    rw [hpc]; exact read_of_exec_ldAtIVx (k := 1) hm hx h
  have hfetched : t.fetchDecoded = .instr i := by
    rw [State.fetchDecoded, State.fetch, hhi, hlo]; exact hdec
  exact step_of_instr hfetched

end Sys2Proof.Machine
end

section
/-! SUPPORT. Proofs of the statements about the encoding of 30_encoding.md: what the decoder can
answer for a word, the rows of the opcode map that hold of it, and the two round trips. -/

namespace Sys2Proof

/-! ### The word of an instruction decodes to it -/

/-- The decoder reads back the class and the selector that the encoder wrote; `N` of `DRW` comes back
because a well-formed row count fits its four bits. -/
theorem decodeWord_encodeWord {i : Instr} (hi : i.wellFormed = true) :
    decodeWord (encodeWord i) = .instr i := by
  cases i
  case cls | ret => rfl
  case drwVxVyN x y n =>
    have hn : n % 16 = n := Nat.mod_eq_of_lt (of_decide_eq_true hi)
    simp [encodeWord, formatFXYN, decodeWord, hn]
  case skpVx | sknpVx =>
    simp [encodeWord, formatFX, decodeWord, decodeClassE]
  case ldVxDT | ldVxK | ldDTVx | ldSTVx | addIVx | ldFVx | ldBVx | ldAtIVx | ldVxAtI =>
    simp [encodeWord, formatFX, decodeWord, decodeClassF]
  case ldVxVy | orVxVy | andVxVy | xorVxVy | addVxVy | subVxVy | shrVx | subnVxVy | shlVx =>
    simp [encodeWord, decodeWord, decodeClass8]
  all_goals simp [encodeWord, decodeWord]

/-- Settles O2: by the cases of `decodeWord_encodeWord`. -/
theorem decodeOfEncodeIsTheInstruction : Obligations.DecodeOfEncodeIsTheInstruction :=
  fun _ => decodeWord_encodeWord

/-! ### What the decoder can answer -/

/-- An answer that fits the word `w`: a well-formed instruction whose word is `w`, or `Unknown` with
`w` itself. -/
def Decoded.Fits (w : Opcode) : Decoded → Prop
  | .instr i => i.wellFormed = true ∧ encodeWord i = w
  | .unknown w' => w' = w

theorem formatFA_of_op {w : Opcode} {c : BitVec 4} (hop : (opField w).toNat = c.toNat) :
    formatFA c (nnnField w) = w := by
  rw [← BitVec.eq_of_toNat_eq hop]; exact rebuild_formatFA w

theorem formatFXK_of_op {w : Opcode} {c : BitVec 4} (hop : (opField w).toNat = c.toNat) :
    formatFXK c (xReg w) (nnField w) = w := by
  rw [← BitVec.eq_of_toNat_eq hop]; exact rebuild_formatFXK w

theorem formatFX_of_op_sel {w : Opcode} {c : BitVec 4} {sel : Byte} (hop : (opField w).toNat = c.toNat)
    (hsel : (nnField w).toNat = sel.toNat) : formatFX c (xReg w) sel = w := by
  rw [← BitVec.eq_of_toNat_eq hsel]; exact formatFXK_of_op hop

theorem formatFXY_of_op_sel {w : Opcode} {c sel : BitVec 4} (hop : (opField w).toNat = c.toNat)
    (hsel : (nField w).toNat = sel.toNat) : formatFXY c (xReg w) (yReg w) sel = w := by
  rw [← BitVec.eq_of_toNat_eq hop, ← BitVec.eq_of_toNat_eq hsel]; exact rebuild_formatFXY w

theorem decodeClass0_fits (w : Opcode) : (decodeClass0 w).Fits w := by
  unfold decodeClass0
  split
  next h => exact ⟨rfl, h.symm⟩
  split
  next h => exact ⟨rfl, h.symm⟩
  rfl

theorem decodeClass8_fits {w : Opcode} (hop : (opField w).toNat = 0x8) : (decodeClass8 w).Fits w := by
  unfold decodeClass8
  split
  case h_10 => rfl
  all_goals
    next hsel => exact ⟨rfl, formatFXY_of_op_sel hop hsel⟩

theorem decodeClassE_fits {w : Opcode} (hop : (opField w).toNat = 0xE) : (decodeClassE w).Fits w := by
  unfold decodeClassE
  split
  case h_3 => rfl
  all_goals
    next hsel => exact ⟨rfl, formatFX_of_op_sel hop hsel⟩

theorem decodeClassF_fits {w : Opcode} (hop : (opField w).toNat = 0xF) : (decodeClassF w).Fits w := by
  unfold decodeClassF
  split
  case h_10 => rfl
  all_goals
    next hsel => exact ⟨rfl, formatFX_of_op_sel hop hsel⟩

/-- Whatever the decoder answers for a word fits the word: no bit of it is dropped. -/
theorem decodeWord_fits (w : Opcode) : (decodeWord w).Fits w := by
  unfold decodeWord
  split
  case h_1 => exact decodeClass0_fits w
  case h_9 hop => exact decodeClass8_fits hop
  case h_15 hop => exact decodeClassE_fits hop
  case h_16 hop => exact decodeClassF_fits hop
  case h_2 hop | h_3 hop | h_11 hop | h_12 hop => exact ⟨rfl, formatFA_of_op hop⟩
  case h_4 hop | h_5 hop | h_7 hop | h_8 hop | h_13 hop => exact ⟨rfl, formatFXK_of_op hop⟩
  case h_6 hop | h_10 hop =>
    split
    next hsel => exact ⟨rfl, formatFXY_of_op_sel hop (congrArg BitVec.toNat hsel)⟩
    next => rfl
  case h_14 hop =>
    refine ⟨decide_eq_true (nField w).isLt, formatFXY_of_op_sel hop ?_⟩
    rw [BitVec.ofNat_toNat, BitVec.setWidth_eq]
  case h_17 => rfl

theorem wellFormed_and_encodeWord_of_decodeWord {w : Opcode} {i : Instr} (h : decodeWord w = .instr i) :
    i.wellFormed = true ∧ encodeWord i = w := by
  have hfits := decodeWord_fits w
  rwa [h] at hfits

theorem eq_of_decodeWord_unknown {w w' : Opcode} (h : decodeWord w = .unknown w') : w' = w := by
  have hfits := decodeWord_fits w
  rwa [h] at hfits

/-- Settles O3: an instruction that the decoder answers fits the word. -/
theorem encodeOfDecodeIsTheWord : Obligations.EncodeOfDecodeIsTheWord :=
  fun _ _ => wellFormed_and_encodeWord_of_decodeWord

/-! ### The rows of the opcode map -/

/-- Every instruction's row stands in the opcode map and holds of the instruction's word. -/
theorem tableRow (i : Instr) : Laws.TableRow.Statement i := by
  open Laws.TableRow in
  cases i
  exacts [cls, ret, jpNNN _, callNNN _, seVxNN _ _, sneVxNN _ _, seVxVy _ _, ldVxNN _ _, addVxNN _ _,
    ldVxVy _ _, orVxVy _ _, andVxVy _ _, xorVxVy _ _, addVxVy _ _, subVxVy _ _, shrVx _ _, subnVxVy _ _,
    shlVx _ _, sneVxVy _ _, ldINNN _, jpV0NNN _, rndVxNN _ _, drwVxVyN _ _ _, skpVx _, sknpVx _, ldVxDT _,
    ldVxK _, ldDTVx _, ldSTVx _, addIVx _, ldFVx _, ldBVx _, ldAtIVx _, ldVxAtI _]

/-- Two words of one row agree in every field that the row's mask covers; the instruction's own word
is one of them. -/
theorem extract_of_row_holds {i : Instr} {w : Opcode} {s l : Nat} (h : i.row.holds w = true)
    (hmask : i.row.mask.extractLsb' s l = BitVec.allOnes l) :
    w.extractLsb' s l = (encodeWord i).extractLsb' s l := by
  obtain ⟨-, hown⟩ := tableRow i
  have hbits : w &&& i.row.mask = encodeWord i &&& i.row.mask :=
    (eq_of_beq h).trans (eq_of_beq hown).symm
  simpa [BitVec.extractLsb'_and, hmask] using congrArg (BitVec.extractLsb' s l) hbits

/-- The mask of every row covers the class. -/
theorem opField_mask_row (i : Instr) : opField i.row.mask = BitVec.allOnes 4 := by
  cases i <;> simp [Instr.row, opField]

theorem opField_of_row_holds {i : Instr} {w : Opcode} (h : i.row.holds w = true) :
    opField w = opField (encodeWord i) := extract_of_row_holds h (opField_mask_row i)

theorem nField_of_row_holds {i : Instr} {w : Opcode} (h : i.row.holds w = true)
    (hmask : i.row.mask = 0xF00F) : nField w = nField (encodeWord i) :=
  extract_of_row_holds h (by rw [hmask]; decide)

theorem nnField_of_row_holds {i : Instr} {w : Opcode} (h : i.row.holds w = true)
    (hmask : i.row.mask = 0xF0FF) : nnField w = nnField (encodeWord i) :=
  extract_of_row_holds h (by rw [hmask]; decide)

theorem eq_encodeWord_of_row_holds {i : Instr} {w : Opcode} (h : i.row.holds w = true)
    (hmask : i.row.mask = 0xFFFF) : w = encodeWord i := by
  have hall := extract_of_row_holds (s := 0) (l := 16) h (by rw [hmask]; decide)
  rwa [extract_all, extract_all] at hall

/-- Where the row of an instruction holds, the word decodes to an instruction of that row: the mask
covers the class and the selector, which are all that the decoder branches on. -/
theorem decodeWord_of_row_holds {i : Instr} {w : Opcode} (h : i.row.holds w = true) :
    ∃ j, decodeWord w = .instr j ∧ j.row = i.row := by
  have hop := opField_of_row_holds h
  cases i
  case cls | ret =>
    rw [eq_encodeWord_of_row_holds h rfl]
    exact ⟨_, rfl, rfl⟩
  case seVxVy | sneVxVy =>
    have hsel := nField_of_row_holds h rfl
    simp [decodeWord, hop, hsel, encodeWord, Instr.row]
  case ldVxVy | orVxVy | andVxVy | xorVxVy | addVxVy | subVxVy | shrVx | subnVxVy | shlVx =>
    have hsel := nField_of_row_holds h rfl
    simp [decodeWord, decodeClass8, hop, hsel, encodeWord, Instr.row]
  case skpVx | sknpVx =>
    have hsel := nnField_of_row_holds h rfl
    simp [decodeWord, decodeClassE, hop, hsel, encodeWord, formatFX, Instr.row]
  case ldVxDT | ldVxK | ldDTVx | ldSTVx | addIVx | ldFVx | ldBVx | ldAtIVx | ldVxAtI =>
    have hsel := nnField_of_row_holds h rfl
    simp [decodeWord, decodeClassF, hop, hsel, encodeWord, formatFX, Instr.row]
  all_goals simp [decodeWord, hop, encodeWord, formatFXYN, Instr.row]

/-- The row of the instruction that a word decodes to holds of the word. -/
theorem row_holds_of_decodeWord {w : Opcode} {i : Instr} (h : decodeWord w = .instr i) :
    i.row.holds w = true := by
  obtain ⟨-, hword⟩ := wellFormed_and_encodeWord_of_decodeWord h
  obtain ⟨-, hholds⟩ := tableRow i
  rwa [hword] at hholds

/-- A row of the map that holds of a word is the row of the instruction the word decodes to. -/
theorem decodeWord_of_mem_opcodeMap {r : OpcodeRow} {w : Opcode} (hr : r ∈ opcodeMap)
    (h : r.holds w = true) : ∃ j, decodeWord w = .instr j ∧ j.row = r := by
  obtain ⟨i, -, rfl⟩ := List.mem_map.1 hr
  exact decodeWord_of_row_holds h

theorem decodes_iff_row_holds (w : Opcode) :
    (∃ i, decodeWord w = .instr i) ↔ ∃ r ∈ opcodeMap, r.holds w = true := by
  constructor
  · rintro ⟨i, hdec⟩
    exact ⟨i.row, (tableRow i).1, row_holds_of_decodeWord hdec⟩
  · rintro ⟨r, hr, hholds⟩
    obtain ⟨j, hdec, -⟩ := decodeWord_of_mem_opcodeMap hr hholds
    exact ⟨j, hdec⟩

theorem decodeWord_eq_unknown_of_no_instr {w : Opcode} (h : ¬ ∃ i, decodeWord w = .instr i) :
    decodeWord w = .unknown w := by
  cases hdec : decodeWord w with
  | instr i => exact absurd ⟨i, hdec⟩ h
  | unknown w' => rw [eq_of_decodeWord_unknown hdec]

/-- Settles O4: from the lemmas on the rows, and `Fits` for the word that `Unknown` carries. -/
theorem wordDecodesExactlyWhereARowHolds : Obligations.WordDecodesExactlyWhereARowHolds :=
  fun w => ⟨decodes_iff_row_holds w, fun _ => row_holds_of_decodeWord,
    fun hno => decodeWord_eq_unknown_of_no_instr (mt (decodes_iff_row_holds w).1 hno)⟩

/-- Settles O5: two rows that hold of one word are the row of the one instruction it decodes to. -/
theorem opcodeMapRowsAreDisjoint : Obligations.OpcodeMapRowsAreDisjoint := by
  intro w r hr r' hr' h h'
  obtain ⟨j, hdec, rfl⟩ := decodeWord_of_mem_opcodeMap hr h
  obtain ⟨j', hdec', rfl⟩ := decodeWord_of_mem_opcodeMap hr' h'
  have hsame : Decoded.instr j = .instr j' := hdec.symm.trans hdec'
  injection hsame with hsame
  rw [hsame]

/-! ### Words written out -/

/-- Settles O1: sixteen closed words, each decoded. -/
theorem writtenWordsDecodeAsTheTableSays : Obligations.WrittenWordsDecodeAsTheTableSays := by
  unfold Obligations.WrittenWordsDecodeAsTheTableSays
  decide

end Sys2Proof
end

section
/-! SUPPORT. Proofs of the statements about the dispatcher of 40_dispatcher_step.md: the tick and the
advance of `pc` over all instructions, and the two kinds of word that a step can fetch. -/

namespace Sys2Proof.Machine

/-! ### What the tick and the advance leave -/

/-- A step that retires has ticked both timers, where its execute stage left them and `SOUND_PENDING`
as they were (R89). -/
theorem ticks_retire {s u : State} (hdt : u.dt = s.dt) (hst : u.st = s.st)
    (hsound : u.soundPending = s.soundPending) (c : Condition) : Ticks s (u.retire c) := by
  have hone : s.st = 1 ↔ s.st.toNat = 1 := BitVec.toNat_inj.symm
  refine ⟨?_, ?_, ?_⟩
  · rw [DelayTicksFrom, State.retire_dt, hdt, countDown_toNat]
  · rw [State.retire_st, hst, countDown_toNat]
  · rw [State.retire_soundPending, hsound, hst, Bool.or_eq_true, beq_iff_eq, hone]

/-- A sum on the 12-bit `pc` is the sum modulo 4096. -/
theorem pcMoves_of_pc_eq_add {n : Nat} {s t : State} (h : t.pc = s.pc + BitVec.ofNat 12 n) :
    PcMoves n s t := by
  simp [PcMoves, h, BitVec.toNat_add]

/-- A step that only sets `pc` and retires leaves the whole frame. -/
theorem frameBut_setPc_retire (w : Touches) (s : State) (a : Addr) (c : Condition) :
    FrameBut w s ((s.setPc a).retire c) :=
  ⟨fun _ _ => rfl, fun _ => rfl, fun _ => ⟨rfl, rfl⟩, fun _ => ⟨rfl, rfl⟩, fun _ _ => rfl, rfl⟩

/-! ### Every instruction -/

/-- Settles O12: `Executes` allows another value in a timer only to the instruction that sets it, and
a stall needs every key released. -/
theorem everyCompletedInstructionTicksBothTimers :
    Obligations.EveryCompletedInstructionTicksBothTimers := by
  intro i s t h hdt hst hkey
  obtain ⟨x, hi, hreleased, -⟩ | ⟨u, hx, rfl⟩ := exec_next h
  · obtain ⟨k, hk⟩ := hkey x hi
    exact absurd hk (Bool.eq_false_iff.1 (hreleased k))
  · have hdt' : u.dt = s.dt := hx.dt.resolve_right fun ⟨x, hi⟩ => hdt x hi
    have hst' : u.st = s.st := hx.st.resolve_right fun ⟨x, hi⟩ => hst x hi
    exact ticks_retire hdt' hst' hx.soundPending .ok

/-- An instruction with no effect of its own on `pc` completes by `State.advance`, from a `pc` that
its execute stage has left alone. -/
theorem exec_eq_complete_advance {i : Instr} (hi : i.movesPc = false) (s : State) :
    ∃ u : State, exec i s = complete u.advance ∧ u.pc = s.pc := by
  cases i
  case ret | jpNNN | callNNN | jpV0NNN => cases hi
  case seVxNN | sneVxNN | seVxVy | sneVxVy | skpVx | sknpVx => cases hi
  case ldVxK => cases hi
  all_goals exact ⟨_, rfl, rfl⟩

/-- Settles O13: the advance is the last change before the instruction retires. -/
theorem everyOtherInstructionAdvancesByTwo : Obligations.EveryOtherInstructionAdvancesByTwo := by
  intro i s t hi h
  obtain ⟨u, hexec, hpc⟩ := exec_eq_complete_advance hi s
  rw [hexec] at h
  have hnext : t.pc = s.pc + 2 := by
    rw [complete_eq_next.1 h, State.retire_pc, State.advance_pc, hpc]
  exact pcMoves_of_pc_eq_add hnext

/-! ### The fetched word -/

/-- The fetch reads the bytes at `pc` and `(pc + 1) mod 4096`, high byte first (20_memory.md R41). -/
theorem fetchDecoded_eq_decodeBytes (s : State) :
    s.fetchDecoded = decodeBytes (s.mem.read s.pc) (s.mem.read (s.pc + 1)) := rfl

/-- Settles O6: the step runs what the fetched word decodes to, and the decoder answers well-formed
instructions alone. -/
theorem stepRunsTheDecodedInstruction : Obligations.StepRunsTheDecodedInstruction := by
  intro s i h
  rw [← fetchDecoded_eq_decodeBytes] at h
  obtain ⟨hwellFormed, -⟩ := wellFormed_and_encodeWord_of_decodeWord h
  exact ⟨step_of_instr h, hwellFormed⟩

/-- Settles O7: an unknown word does nothing but set `pc` before it retires with its report. -/
theorem stepSkipsAndReportsAnUnknownWord : Obligations.StepSkipsAndReportsAnUnknownWord := by
  intro s w h
  rw [← fetchDecoded_eq_decodeBytes] at h
  exact ⟨_, step_of_unknown h, pcMoves_of_pc_eq_add rfl, ticks_retire rfl rfl rfl _, rfl, rfl,
    frameBut_setPc_retire {} s (s.pc + 2) _⟩

end Sys2Proof.Machine
end

section
/-! SUPPORT. Proofs of the statements about the control transfers of 41_control_transfer.md: jumps,
skips, and the call stack. -/

namespace Sys2Proof.Machine

/-! ### Jumps -/

/-- An instruction that does nothing but set `pc` answers `pc` at its target and the whole frame. -/
theorem goesTo_of_exec_eq_setPc {i : Instr} {s : State} {a : Addr} (h : exec i s = complete (s.setPc a)) :
    ∃ t, exec i s = .next t ∧ t.pc = a ∧ FrameBut {} s t :=
  ⟨_, h, rfl, frameBut_setPc_retire {} s a .ok⟩

/-- Settles O20: the meaning sets `pc` alone. -/
theorem jumpGoesToItsTarget : Obligations.JumpGoesToItsTarget :=
  fun _ _ => goesTo_of_exec_eq_setPc rfl

/-- The sum of an address and a register is the sum modulo 4096 (decision D1). -/
theorem addrPlus_toNat (a : Addr) (b : Byte) : (addrPlus a b).toNat = (a.toNat + b.toNat) % 4096 := by
  have hb : b.toNat < 4096 := by omega
  rw [addrPlus, BitVec.toNat_add, BitVec.toNat_setWidth, Nat.mod_eq_of_lt hb]

/-- Settles O22: the meaning sets `pc` alone, to a sum taken modulo 4096. -/
theorem offsetJumpAddsRegisterZero : Obligations.OffsetJumpAddsRegisterZero := by
  intro nnn s
  obtain ⟨t, hexec, hpc, hframe⟩ := goesTo_of_exec_eq_setPc (i := .jpV0NNN nnn) (s := s) rfl
  exact ⟨t, hexec, by rw [hpc, addrPlus_toNat], hframe⟩

/-! ### Skips -/

/-- A skip moves `pc` four bytes on where its condition holds and two where it does not, modulo 4096. -/
theorem pcMoves_skipIf_retire {p : Prop} [Decidable p] {b : Bool} (hb : b = true ↔ p) (s : State)
    (c : Condition) : PcMoves (if p then 4 else 2) s ((s.skipIf b).retire c) := by
  apply pcMoves_of_pc_eq_add
  by_cases hp : p
  · simp [hb.2 hp, hp]
  · have hfalse : b = false := Bool.eq_false_iff.2 (mt hb.1 hp)
    simp [hfalse, hp]

/-- An instruction that does nothing but skip moves `pc` and leaves the whole frame. -/
theorem skips_of_exec_eq_skipIf {i : Instr} {s : State} {p : Prop} [Decidable p] {b : Bool}
    (h : exec i s = complete (s.skipIf b)) (hb : b = true ↔ p) :
    ∃ t, exec i s = .next t ∧ PcMoves (if p then 4 else 2) s t ∧ FrameBut {} s t :=
  ⟨_, h, pcMoves_skipIf_retire hb s .ok, frameBut_setPc_retire {} s _ .ok⟩

/-- Settles O23: each of the four is `State.skipIf` on its own comparison. -/
theorem skipsMoveFourOrTwoBytes : Obligations.SkipsMoveFourOrTwoBytes := by
  intro x y nn s
  refine ⟨?seImmediate, ?sneImmediate, ?seRegister, ?sneRegister⟩
  case seImmediate | seRegister => exact skips_of_exec_eq_skipIf rfl beq_iff_eq
  case sneImmediate | sneRegister => exact skips_of_exec_eq_skipIf rfl bne_iff_ne

/-! ### The call stack -/

/-- A step that only writes the stack and `pc` and retires leaves the frame outside the stack. -/
theorem frameBut_setStack_setPc_retire (s : State) (p : Fin 17) (entries : Vector Addr 16) (a : Addr)
    (c : Condition) :
    FrameBut { stack := true } s ((State.setPc { s with sp := p, stack := entries } a).retire c) :=
  ⟨fun _ _ => rfl, fun _ => rfl, nofun, fun _ => ⟨rfl, rfl⟩, fun _ _ => rfl, rfl⟩

/-- Settles O18: with an entry in use `RET` takes the branch that pops, and the popped entry is the
one below the stack pointer. -/
theorem returnPopsAndGoesPastTheCall : Obligations.ReturnPopsAndGoesPastTheCall := by
  intro s k hsp
  have hpos : 0 < s.sp.val := by omega
  have hentry : s.sp.val - 1 = k.val := by omega
  refine ⟨_, execRet_of_pos hpos, hentry, rfl, ?_, frameBut_setStack_setPc_retire s _ s.stack _ .ok⟩
  simp [hentry, BitVec.toNat_add]

/-- Settles O19: the branch of each meaning in which the stack refuses. -/
theorem stackFaultsAreRaisedWithWordAndAddress : Obligations.StackFaultsAreRaisedWithWordAndAddress :=
  ⟨fun _ hempty => execRet_of_empty hempty, fun nnn _ hfull => execCallNNN_of_full hfull nnn⟩

/-- Settles O21: with an entry free `CALL` takes the branch that pushes, which sets the one entry at
the stack pointer. -/
theorem callPushesItsAddressAndJumps : Obligations.CallPushesItsAddressAndJumps := by
  intro nnn s k hsp
  have hfree : s.sp.val < 16 := by omega
  refine ⟨_, execCallNNN_of_lt hfree nnn, rfl, congrArg (· + 1) hsp, ?pushed, ?others,
    frameBut_setStack_setPc_retire s _ _ nnn .ok⟩
  case pushed => simp [hsp]
  case others =>
    intro j hj
    have hne : s.sp.val ≠ j.val := by omega
    simp [Vector.getElem_set_ne, hne]

/-- Settles O24: `RET` pops the entry that `CALL` has pushed (O21, O18), both frames leave the
registers, and neither instruction writes memory (O17). -/
theorem callThenReturnGoesPastTheCall : Obligations.CallThenReturnGoesPastTheCall := by
  intro nnn s hfree
  obtain ⟨t, hcall, -, htsp, hpushed, -, htregs, -⟩ :=
    callPushesItsAddressAndJumps nnn s ⟨s.sp.val, hfree⟩ rfl
  obtain ⟨u, hret, husp, -, hpc, huregs, -⟩ :=
    returnPopsAndGoesPastTheCall t ⟨s.sp.val, hfree⟩ htsp
  obtain ⟨htmem, -⟩ := onlyTheirWritersChangeMemoryStackAndDisplay _ s t hcall
  obtain ⟨humem, -⟩ := onlyTheirWritersChangeMemoryStackAndDisplay _ t u hret
  refine ⟨t, u, hcall, hret, ?_, Fin.ext husp, fun r => ?_, ?_⟩
  · rw [PcMoves, hpc, hpushed]
  · rw [huregs r nofun, htregs r nofun]
  · rw [humem nofun nofun, htmem nofun nofun]

end Sys2Proof.Machine
end

section
/-! SUPPORT. Proofs of the statements about the immediate loads and the ALU of
42_immediate_and_alu.md: what an instruction that writes one register leaves, what one that writes the
flag after it leaves, and the value of each result and flag as a number. -/

namespace Sys2Proof.Machine

/-! ### The two shapes of an ALU instruction -/

/-- A step that only writes register `x` and retires leaves the frame outside that register. -/
theorem frameBut_setV_advance_retire (s : State) (x : Reg) (b : Byte) (c : Condition) :
    FrameBut { regs := [x] } s ((s.setV x b).advance.retire c) :=
  ⟨fun _ hr => getV_setV_other s b (List.ne_of_not_mem_cons hr), fun _ => rfl, fun _ => ⟨rfl, rfl⟩,
    fun _ => ⟨rfl, rfl⟩, fun _ _ => rfl, rfl⟩

theorem getV_setVAndFlag_flag (s : State) (x : Reg) (b : Byte) (f : Bool) :
    (s.setVAndFlag x b f).getV 15 = flagByte f := getV_setV_same (s.setV x b) flagReg (flagByte f)

theorem getV_setVAndFlag_result (s : State) {x : Reg} (hx : x ≠ 15) (b : Byte) (f : Bool) :
    (s.setVAndFlag x b f).getV x = b :=
  (getV_setV_other (s.setV x b) (flagByte f) hx).trans (getV_setV_same s x b)

/-- A step that only writes register `x` and then the flag leaves the frame outside both. -/
theorem frameBut_setVAndFlag_advance_retire (s : State) (x : Reg) (b : Byte) (f : Bool) (c : Condition) :
    FrameBut { regs := [x, 15] } s ((s.setVAndFlag x b f).advance.retire c) := by
  refine ⟨fun r hr => ?_, fun _ => rfl, fun _ => ⟨rfl, rfl⟩, fun _ => ⟨rfl, rfl⟩, fun _ _ => rfl, rfl⟩
  obtain ⟨hx, hflag⟩ : r ≠ x ∧ r ≠ flagReg := by simpa [flagReg] using hr
  rw [getV_retire, getV_advance, getV_setVAndFlag, if_neg hflag, if_neg hx]

/-- An instruction of the shape `writeReg` answers the byte in its register and the frame outside it. -/
theorem writes_of_exec_eq_writeReg {i : Instr} {s : State} {x : Reg} {b : Byte}
    (h : exec i s = writeReg x b s) :
    ∃ t, exec i s = .next t ∧ t.getV x = b ∧ FrameBut { regs := [x] } s t :=
  ⟨_, h, getV_setV_same s x b, frameBut_setV_advance_retire s x b .ok⟩

/-- An instruction of the shape `writeRegFlag` answers the result in its register, unless that is
register 15, and the flag in register 15 whatever the destination (10_state.md R13; decision D9). -/
theorem writes_of_exec_eq_writeRegFlag {i : Instr} {s : State} {x : Reg} {b : Byte} {f : Bool} {n k : Nat}
    (h : exec i s = writeRegFlag x b f s) (hb : b.toNat = n) (hf : (flagByte f).toNat = k) :
    ∃ t, exec i s = .next t ∧ (x ≠ 15 → (t.getV x).toNat = n) ∧ (t.getV 15).toNat = k ∧
      FrameBut { regs := [x, 15] } s t := by
  refine ⟨_, h, fun hx => ?result, ?flag, frameBut_setVAndFlag_advance_retire s x b f .ok⟩
  case result => rw [getV_retire, getV_advance, getV_setVAndFlag_result s hx, hb]
  case flag => rw [getV_retire, getV_advance, getV_setVAndFlag_flag, hf]

/-! ### The flags of the table of R13 as numbers -/

theorem flagByte_carryOut_toNat (a b : Byte) :
    (flagByte (carryOut a b)).toNat = if 255 < a.toNat + b.toNat then 1 else 0 := by
  simp [carryOut]

theorem flagByte_noBorrow_toNat (a b : Byte) :
    (flagByte (noBorrow a b)).toNat = if b.toNat ≤ a.toNat then 1 else 0 := by
  simp [noBorrow]

/-- A flag that copies bit `k` of a byte is that bit as a number. -/
theorem flagByte_getLsbD_toNat (a : Byte) (k : Nat) :
    (flagByte (a.getLsbD k)).toNat = a.toNat / 2 ^ k % 2 := by
  rw [flagByte_toNat, BitVec.getLsbD, ← Nat.toNat_testBit, Bool.toNat, cond_eq_ite]

theorem flagByte_shiftedOutRight_toNat (a : Byte) : (flagByte (shiftedOutRight a)).toNat = a.toNat % 2 := by
  rw [shiftedOutRight, flagByte_getLsbD_toNat, Nat.pow_zero, Nat.div_one]

/-- Bit 7 is the whole quotient by 128, since a byte is below 256. -/
theorem flagByte_shiftedOutLeft_toNat (a : Byte) : (flagByte (shiftedOutLeft a)).toNat = a.toNat / 128 := by
  have hquotient : a.toNat / 2 ^ 7 < 2 := by omega
  rw [shiftedOutLeft, flagByte_getLsbD_toNat]
  exact Nat.mod_eq_of_lt hquotient

/-! ### The results as numbers -/

theorem byte_sub_toNat (a b : Byte) : (a - b).toNat = (a.toNat + 256 - b.toNat) % 256 := by
  have hb : b.toNat < 256 := b.isLt
  rw [BitVec.toNat_sub]
  omega

theorem byte_shiftRight_one_toNat (a : Byte) : (a >>> 1).toNat = a.toNat / 2 := by
  rw [BitVec.toNat_ushiftRight, Nat.shiftRight_one]

theorem byte_shiftLeft_one_toNat (a : Byte) : (a <<< 1).toNat = 2 * a.toNat % 256 := by
  rw [BitVec.toNat_shiftLeft, Nat.shiftLeft_eq, Nat.pow_one, Nat.mul_comm]

/-! ### One register written, no flag -/

/-- Settles O25: the shape `writeReg` with the immediate. -/
theorem loadImmediateWritesTheRegister : Obligations.LoadImmediateWritesTheRegister :=
  fun _ _ _ => writes_of_exec_eq_writeReg rfl

/-- Settles O26: the shape `writeReg` with a sum of bytes, which wraps. -/
theorem addImmediateWrapsWithoutAFlag : Obligations.AddImmediateWrapsWithoutAFlag := by
  intro x nn s
  obtain ⟨t, hexec, hsum, hframe⟩ := writes_of_exec_eq_writeReg (i := .addVxNN x nn) (s := s) rfl
  exact ⟨t, hexec, by rw [hsum, BitVec.toNat_add], hframe⟩

/-- Settles O27: each of the four is the shape `writeReg` with its own result. -/
theorem copyAndLogicWriteTheResultAlone : Obligations.CopyAndLogicWriteTheResultAlone :=
  fun _ _ _ => ⟨writes_of_exec_eq_writeReg rfl, writes_of_exec_eq_writeReg rfl,
    writes_of_exec_eq_writeReg rfl, writes_of_exec_eq_writeReg rfl⟩

/-! ### One register written, then the flag -/

/-- Settles O28: the shape `writeRegFlag` with the sum and its carry. -/
theorem addRegistersWritesSumThenCarry : Obligations.AddRegistersWritesSumThenCarry :=
  fun _ _ _ => writes_of_exec_eq_writeRegFlag rfl (BitVec.toNat_add _ _) (flagByte_carryOut_toNat _ _)

/-- Settles O29: both are the shape `writeRegFlag`, with the operands in opposite order. -/
theorem subtractionsWriteDifferenceThenNoBorrow : Obligations.SubtractionsWriteDifferenceThenNoBorrow :=
  fun _ _ _ =>
    ⟨writes_of_exec_eq_writeRegFlag rfl (byte_sub_toNat _ _) (flagByte_noBorrow_toNat _ _),
      writes_of_exec_eq_writeRegFlag rfl (byte_sub_toNat _ _) (flagByte_noBorrow_toNat _ _)⟩

/-- Settles O30: both are the shape `writeRegFlag` on register X alone, the flag being the bit of the
old value that the shift drops. -/
theorem shiftsMoveRegisterXByOnePlace : Obligations.ShiftsMoveRegisterXByOnePlace :=
  fun _ _ _ =>
    ⟨writes_of_exec_eq_writeRegFlag rfl (byte_shiftRight_one_toNat _) (flagByte_shiftedOutRight_toNat _),
      writes_of_exec_eq_writeRegFlag rfl (byte_shiftLeft_one_toNat _) (flagByte_shiftedOutLeft_toNat _)⟩

end Sys2Proof.Machine
end

section
/-! SUPPORT. Proofs of the statements about the index and memory of 43_index_and_memory.md: what an
instruction that writes `I` leaves, the digits stored at `I`, and the block transfers. -/

namespace Sys2Proof.Machine

/-! ### The index register -/

/-- An instruction that does nothing but set `I` answers its value in `I` and the frame outside it. -/
theorem pointsAt_of_exec_eq_setI {i : Instr} {s : State} {a : Addr}
    (h : exec i s = complete (s.setI a).advance) :
    ∃ t, exec i s = .next t ∧ t.i = a ∧ FrameBut { index := true } s t :=
  ⟨_, h, rfl, fun _ _ => rfl, nofun, fun _ => ⟨rfl, rfl⟩, fun _ => ⟨rfl, rfl⟩, fun _ _ => rfl, rfl⟩

/-- Settles O31: the meaning sets `I` alone. -/
theorem loadIndexWritesTheIndex : Obligations.LoadIndexWritesTheIndex :=
  fun _ _ => pointsAt_of_exec_eq_setI rfl

theorem lowNibble_val (b : Byte) : (lowNibble b).val = b.toNat % 16 := by
  simp [lowNibble]

/-- Sixteen digits of five bytes end far below 4096, so the address of a digit does not wrap. -/
theorem glyphAddr_toNat (digit : Fin 16) : (glyphAddr digit).toNat = 5 * digit.val := by
  have hbound : 5 * digit.val < 4096 := by omega
  simp [glyphAddr, Config.fontBase, Config.glyphHeight, Nat.mod_eq_of_lt hbound]

/-- Settles O33: the meaning sets `I` alone, to the address of the digit. -/
theorem loadFontPointsAtTheDigit : Obligations.LoadFontPointsAtTheDigit := by
  intro x s
  obtain ⟨t, hexec, hindex, hframe⟩ := pointsAt_of_exec_eq_setI (i := .ldFVx x) (s := s) rfl
  exact ⟨t, hexec, by rw [hindex, glyphAddr_toNat, lowNibble_val], hframe⟩

theorem flagByte_indexOverflow_toNat (i : Addr) (b : Byte) :
    (flagByte (indexOverflow i b)).toNat = if 4095 < i.toNat + b.toNat then 1 else 0 := by
  simp [indexOverflow]

/-- A step that only writes `I` and then the flag leaves the frame outside both. -/
theorem frameBut_setI_setFlag_advance_retire (s : State) (a : Addr) (f : Bool) (c : Condition) :
    FrameBut { regs := [15], index := true } s (((s.setI a).setFlag f).advance.retire c) :=
  ⟨fun _ hr => getV_setV_other (s.setI a) (flagByte f) (List.ne_of_not_mem_cons hr), nofun,
    fun _ => ⟨rfl, rfl⟩, fun _ => ⟨rfl, rfl⟩, fun _ _ => rfl, rfl⟩

/-- Settles O32: the meaning sets `I` to a sum taken modulo 4096, then the flag to its overflow. -/
theorem addToIndexWrapsAndFlagsOverflow : Obligations.AddToIndexWrapsAndFlagsOverflow := by
  intro x s
  refine ⟨_, rfl, addrPlus_toNat s.i (s.getV x), ?flag, frameBut_setI_setFlag_advance_retire s _ _ .ok⟩
  case flag =>
    rw [getV_retire, getV_advance, getV_setFlag]
    exact flagByte_indexOverflow_toNat s.i (s.getV x)

/-! ### Bytes stored at `I` -/

/-- A step that only stores bytes at `I` leaves the frame outside them. -/
theorem frameBut_storeAtI_advance_retire (s : State) (bs : List Byte) (c : Condition) :
    FrameBut { bytesAtI := bs.length } s ((s.storeAtI bs).advance.retire c) :=
  ⟨fun _ _ => rfl, fun _ => rfl, fun _ => ⟨rfl, rfl⟩, fun _ => ⟨rfl, rfl⟩,
    fun a ha => Memory.read_writeBytes_other s.mem s.i a bs ha, rfl⟩

@[simp] theorem length_decimalDigits (b : Byte) : (decimalDigits b).length = 3 := rfl

/-- `LD B,Vx` leaves digit `k` at `I + k`, modulo 4096 (R143). -/
theorem read_of_exec_ldBVx {x : Reg} {s t : State} (hm : s.mem.wf) (h : exec (.ldBVx x) s = .next t)
    (k : Nat) (hk : k < 3) : t.mem.read (s.i + BitVec.ofNat 12 k) = (decimalDigits (s.getV x))[k] := by
  have hmax : (decimalDigits (s.getV x)).length ≤ 4096 := by simp
  rw [complete_eq_next.1 h]
  exact Memory.read_writeBytes_same hm s.i _ hmax k hk

/-- The three digits of a byte as numbers: none is above 9, so each fits its own byte. -/
theorem decimalDigits_toNat (b : Byte) :
    (decimalDigits b)[0].toNat = b.toNat / 100 ∧ (decimalDigits b)[1].toNat = b.toNat / 10 % 10 ∧
      (decimalDigits b)[2].toNat = b.toNat % 10 := by
  refine ⟨?_, ?_, ?_⟩ <;> exact Nat.mod_eq_of_lt (by omega)

/-- Settles O34: the byte at `I + k` is digit `k`, and the meaning stores nothing else. -/
theorem decimalDigitsGoToThreeBytesAtIndex : Obligations.DecimalDigitsGoToThreeBytesAtIndex := by
  intro x s hm
  have hread := read_of_exec_ldBVx (x := x) hm rfl
  obtain ⟨hhundreds, htens, hunits⟩ := decimalDigits_toNat (s.getV x)
  refine ⟨_, rfl, ?hundreds, ?tens, ?units, frameBut_storeAtI_advance_retire s _ .ok⟩
  case hundreds => rw [← hhundreds, ← hread 0 (by decide), BitVec.add_zero]
  case tens => exact (congrArg BitVec.toNat (hread 1 (by decide))).trans htens
  case units => exact (congrArg BitVec.toNat (hread 2 (by decide))).trans hunits

/-! ### The block transfers -/

/-- The advance of `I` after a block transfer wraps modulo 4096. -/
theorem bumpI_i_toNat (s : State) (x : Reg) : (s.bumpI x).i.toNat = (s.i.toNat + x.val + 1) % 4096 := by
  simp [BitVec.toNat_add, Nat.add_assoc]

/-- A step that only stores bytes at `I` and then moves `I` leaves the frame outside both. -/
theorem frameBut_storeAtI_bumpI_advance_retire (s : State) (bs : List Byte) (x : Reg) (c : Condition) :
    FrameBut { index := true, bytesAtI := bs.length } s (((s.storeAtI bs).bumpI x).advance.retire c) :=
  ⟨fun _ _ => rfl, nofun, fun _ => ⟨rfl, rfl⟩, fun _ => ⟨rfl, rfl⟩,
    fun a ha => Memory.read_writeBytes_other s.mem s.i a bs ha, rfl⟩

/-- Settles O35: the bytes stored are registers 0 to X, one at each address, and `I` moves past them. -/
theorem blockStoreWritesRegistersUpToX : Obligations.BlockStoreWritesRegistersUpToX := by
  intro x s hm
  refine ⟨_, rfl, fun k hk => read_of_exec_ldAtIVx hm hk rfl, bumpI_i_toNat s x, ?frame⟩
  case frame =>
    rw [← length_regsUpTo s x]
    exact frameBut_storeAtI_bumpI_advance_retire s (s.regsUpTo x) x .ok

/-- A block load leaves the byte at `I + k`, modulo 4096, in register `k` for every `k` up to its
field X (R145). -/
theorem getV_of_execLdVxAtI_of_le {x k : Reg} {s t : State} (hk : k ≤ x) (h : execLdVxAtI x s = .next t) :
    t.getV k = s.mem.read (s.i + BitVec.ofNat 12 k.val) := by
  have hlen : k.val < (s.mem.readBytes s.i (x.val + 1)).length := by
    rw [Memory.length_readBytes]; exact Nat.lt_succ_of_le hk
  rw [getV_of_complete h, getV_advance, getV_bumpI, State.getV, getElem_setRegsFrom]
  rw [if_pos (Nat.zero_le _), Nat.sub_zero, State.loadAtI, List.getD_eq_getElem _ _ hlen,
    Memory.getElem_readBytes]

/-- Settles O36: the registers up to X and those above them, and the meaning writes `I` alone beside
the registers. -/
theorem blockLoadFillsRegistersUpToX : Obligations.BlockLoadFillsRegistersUpToX := by
  intro x s
  refine ⟨_, rfl, fun k hk => getV_of_execLdVxAtI_of_le hk rfl, fun k hk => getV_of_execLdVxAtI hk rfl,
    bumpI_i_toNat s x, fun r hr => absurd (List.mem_finRange r) hr, nofun, fun _ => ⟨rfl, rfl⟩,
    fun _ => ⟨rfl, rfl⟩, fun _ _ => rfl, rfl⟩

/-- Settles O37: the load (O36) reads the bytes that the store (O35) has left, from the same `I`. -/
theorem blockStoreThenLoadRestoresTheRegisters : Obligations.BlockStoreThenLoadRestoresTheRegisters := by
  intro x s w hm
  obtain ⟨t, hstore, hstored, -⟩ := blockStoreWritesRegistersUpToX x s hm
  obtain ⟨u, hload, hloaded, hkept, -⟩ := blockLoadFillsRegistersUpToX x { t with i := s.i, v := w }
  exact ⟨t, u, hstore, hload, fun k hk => (hloaded k hk).trans (hstored k hk), hkept⟩

end Sys2Proof.Machine
end

section
/-! SUPPORT. Proofs of the statements about the display of 44_display.md: the cleared display, the
sprite that a draw reads at `I`, and what one draw and two draws of it leave. -/

namespace Sys2Proof.Machine

/-! ### The clear -/

/-- A step that only shows another display leaves the frame outside the display. -/
theorem frameBut_showDisplay_advance_retire (s : State) (d : Display) (c : Condition) :
    FrameBut { display := true } s ((s.showDisplay d).advance.retire c) :=
  ⟨fun _ _ => rfl, fun _ => rfl, fun _ => ⟨rfl, rfl⟩, nofun, fun _ _ => rfl, rfl⟩

/-- Settles O40: the meaning shows the blank display and does nothing else. -/
theorem clearBlanksEveryPixel : Obligations.ClearBlanksEveryPixel :=
  fun s => ⟨_, rfl, blankDisplay_get, rfl, frameBut_showDisplay_advance_retire s blankDisplay .ok⟩

/-! ### The sprite at `I` -/

/-- The rows that a draw reads at `i` put on each pixel the sprite bit of R161 to R163: row `r` of
the list is the byte at `i + r`. -/
theorem rowsBit_readBytes (m : Memory) (i : Addr) (x0 y0 n : Nat) (px : Col) (py : Row) :
    rowsBit x0 y0 (m.readBytes i n) px py = spriteBit m i x0 y0 n px py := by
  have hcolumn (c : Nat) : 7 - c < 8 := by omega
  by_cases hrow : (py.val + 32 - y0 % 32) % 32 < n
  · have hlen : (py.val + 32 - y0 % 32) % 32 < (m.readBytes i n).length := by
      rwa [Memory.length_readBytes]
    have hbyte := Memory.getElem_readBytes m i n _ hlen
    simp [rowsBit, rowBit, spriteBit, hrow, hcolumn, hbyte]
  · simp [rowsBit, spriteBit, hrow]

theorem rowsBit_loadAtI (s : State) (x y : Reg) (n : Nat) (px : Col) (py : Row) :
    rowsBit (s.getV x).toNat (s.getV y).toNat (s.loadAtI n) px py = s.spriteAt x y n px py :=
  rowsBit_readBytes _ _ _ _ _ _ _

theorem length_loadAtI_le {n : Nat} (hn : n < 16) (s : State) : (s.loadAtI n).length ≤ 32 := by
  rw [State.loadAtI, Memory.length_readBytes]
  omega

/-- A draw XORs every pixel with the sprite bit that falls on it. -/
theorem get_drawn {n : Nat} (hn : n < 16) (s : State) (x y : Reg) (px : Col) (py : Row) :
    (s.drawn x y n).1.get px py = (s.disp.get px py ^^ s.spriteAt x y n px py) := by
  rw [State.drawn, get_blit _ _ _ _ (length_loadAtI_le hn s), rowsBit_loadAtI]

/-- A draw collides where a sprite bit of 1 falls on a set pixel (R164). -/
theorem collision_drawn {n : Nat} (hn : n < 16) (s : State) (x y : Reg) :
    (s.drawn x y n).2 = true ↔ ∃ px py, s.spriteAt x y n px py = true ∧ s.disp.get px py = true := by
  rw [State.drawn, collision_blit _ _ _ _ (length_loadAtI_le hn s)]
  simp only [rowsBit_loadAtI]

/-! ### One draw -/

/-- A step that only shows another display and then writes the flag leaves the frame outside both. -/
theorem frameBut_showDisplay_setFlag_advance_retire (s : State) (d : Display) (f : Bool) (c : Condition) :
    FrameBut { regs := [15], display := true } s (((s.showDisplay d).setFlag f).advance.retire c) :=
  ⟨fun _ hr => getV_setV_other (s.showDisplay d) (flagByte f) (List.ne_of_not_mem_cons hr), fun _ => rfl,
    fun _ => ⟨rfl, rfl⟩, nofun, fun _ _ => rfl, rfl⟩

section
variable {x y : Reg} {n : Nat} {s t : State} (h : exec (.drwVxVyN x y n) s = .next t)
include h

theorem get_disp_of_exec_drwVxVyN (hn : n < 16) (px : Col) (py : Row) :
    t.disp.get px py = (s.disp.get px py ^^ s.spriteAt x y n px py) := by
  rw [complete_eq_next.1 h]
  exact get_drawn hn s x y px py

theorem getV_flag_of_exec_drwVxVyN : t.getV 15 = flagByte (s.drawn x y n).2 := by
  rw [complete_eq_next.1 h, getV_retire, getV_advance]
  exact getV_setV_same _ flagReg _

theorem flag_of_exec_drwVxVyN_eq_one_iff (hn : n < 16) :
    (t.getV 15).toNat = 1 ↔ ∃ px py, s.spriteAt x y n px py = true ∧ s.disp.get px py = true := by
  rw [getV_flag_of_exec_drwVxVyN h, ← collision_drawn hn, flagByte_toNat]
  simp

theorem flag_of_exec_drwVxVyN_le_one : (t.getV 15).toNat ≤ 1 := by
  rw [getV_flag_of_exec_drwVxVyN h, flagByte_toNat]
  split <;> decide

/-- A draw leaves `I` and memory, so it leaves the sprite where it leaves both coordinates. -/
theorem spriteAt_of_exec_drwVxVyN (hx : t.getV x = s.getV x) (hy : t.getV y = s.getV y) :
    t.spriteAt x y n = s.spriteAt x y n := by
  have hmem : t.mem = s.mem := by rw [complete_eq_next.1 h]; rfl
  have hindex : t.i = s.i := by rw [complete_eq_next.1 h]; rfl
  funext px py
  rw [State.spriteAt, State.spriteAt, hmem, hindex, hx, hy]

end

/-- Settles O41: a set pixel is cleared exactly where a sprite bit of 1 falls on it, which is the
collision. -/
theorem drawXorsTheSpriteAndFlagsCollision : Obligations.DrawXorsTheSpriteAndFlagsCollision := by
  intro x y n s hn
  obtain ⟨t, h⟩ : ∃ t, exec (.drwVxVyN x y n) s = .next t := ⟨_, rfl⟩
  have hget := get_disp_of_exec_drwVxVyN h hn
  refine ⟨t, h, hget, ?collision, flag_of_exec_drwVxVyN_le_one h, drawPending_of_exec_drwVxVyN h, ?frame⟩
  case collision =>
    rw [flag_of_exec_drwVxVyN_eq_one_iff h hn]
    refine exists₂_congr fun px py => ?_
    rw [hget, and_comm]
    exact and_congr_right fun hset => by simp [hset]
  case frame =>
    rw [complete_eq_next.1 h]
    exact frameBut_showDisplay_setFlag_advance_retire s _ _ .ok

/-! ### Two draws -/

/-- Settles O42: the second draw XORs the same sprite, which undoes the first, and finds a pixel of
the sprite set exactly where the first found it 0. -/
theorem drawingTwiceRestoresTheDisplay : Obligations.DrawingTwiceRestoresTheDisplay := by
  intro x y n s t hn hfirst hx hy
  obtain ⟨u, hsecond⟩ : ∃ u, exec (.drwVxVyN x y n) t = .next u := ⟨_, rfl⟩
  have hsprite := spriteAt_of_exec_drwVxVyN hfirst hx hy
  have hget := get_disp_of_exec_drwVxVyN hfirst hn
  refine ⟨u, hsecond, Display.ext_get fun px py => ?restored, ?collision⟩
  case restored =>
    rw [get_disp_of_exec_drwVxVyN hsecond hn, hsprite, hget, Bool.xor_assoc, Bool.xor_self, Bool.xor_false]
  case collision =>
    rw [flag_of_exec_drwVxVyN_eq_one_iff hsecond hn, hsprite]
    refine exists₂_congr fun px py => and_congr_right fun hbit => ?_
    simp [hget, hbit]

end Sys2Proof.Machine
end

section
/-! SUPPORT. Proofs of the statements about the keys, the timers and the random byte of
45_input_timers_random.md: the sound timer that nothing reads, the key skips, the key-wait, the two
instructions that set a timer, and `RND`. -/

namespace Sys2Proof.Machine

/-! ### The sound timer is read by the tick alone -/

/-- The state with other values in the two fields that a tick derives from `ST`. -/
def State.withSound (a : Byte) (p : Bool) (s : State) : State := { s with st := a, soundPending := p }

/-- Once `ST` and `SOUND_PENDING` are overwritten in the outcome, another `ST` before an instruction
makes no difference, faults included: what `RET`, `CALL` and the key-wait branch on is `SP` and the
latch. -/
theorem mapNext_withSound_exec (i : Instr) (s : State) (a b : Byte) (p : Bool) :
    mapNext (State.withSound a p) (exec i { s with st := b }) =
      mapNext (State.withSound a p) (exec i s) := by
  cases i
  case ret =>
    change mapNext _ (execRet _) = mapNext _ (execRet _)
    by_cases h : 0 < s.sp.val
    · rw [execRet_of_pos h, execRet_of_pos (s := { s with st := b }) h]; rfl
    · have h : s.sp.val = 0 := by omega
      rw [execRet_of_empty h, execRet_of_empty (s := { s with st := b }) h]
  case callNNN nnn =>
    change mapNext _ (execCallNNN nnn _) = mapNext _ (execCallNNN nnn _)
    by_cases h : s.sp.val < 16
    · rw [execCallNNN_of_lt h, execCallNNN_of_lt (s := { s with st := b }) h]; rfl
    · have h := sp_eq_sixteen_of_not_lt h
      rw [execCallNNN_of_full h, execCallNNN_of_full (s := { s with st := b }) h]
  case ldVxK x =>
    change mapNext _ (execLdVxK x _) = mapNext _ (execLdVxK x _)
    cases h : s.lowestKey with
    | none =>
      rw [execLdVxK_of_lowestKey_none h, execLdVxK_of_lowestKey_none (s := { s with st := b }) h]; rfl
    | some k =>
      rw [execLdVxK_of_lowestKey_some h, execLdVxK_of_lowestKey_some (s := { s with st := b }) h]; rfl
  all_goals rfl

theorem mapNext_eq_next {f : State → State} {r : Result} {t : State} (h : mapNext f r = .next t) :
    ∃ u, r = .next u ∧ f u = t := by
  cases r with
  | next u => exact ⟨u, rfl, Host.Outcome.next.inj h⟩
  | fault | refused => cases h

/-- Settles O11: `mapNext_withSound_exec` with the two fields as the answered state has them. -/
theorem noInstructionReadsTheSoundTimer : Obligations.NoInstructionReadsTheSoundTimer := by
  intro i s t b h
  have hsame := mapNext_withSound_exec i s t.st b t.soundPending
  rw [h] at hsame
  exact mapNext_eq_next hsame

/-! ### The key skips -/

theorem keyCodeOf_eq {x : Reg} {k : KeyCode} {s : State} (h : (s.getV x).toNat % 16 = k.val) :
    s.keyCodeOf x = k := Fin.ext ((lowNibble_val _).trans h)

/-- Settles O43: both are `State.skipIf` on the latch bit of the key code in register X. -/
theorem keySkipsTestTheLatch : Obligations.KeySkipsTestTheLatch := by
  intro x k s hk
  have hkey : s.keyCodeOf x = k := keyCodeOf_eq hk
  refine ⟨?skp, ?sknp⟩
  case skp => exact skips_of_exec_eq_skipIf rfl (by rw [hkey])
  case sknp => exact skips_of_exec_eq_skipIf rfl (by rw [hkey, Bool.not_eq_true'])

/-! ### One register written, and the instruction completed -/

/-- An instruction of the shape `writeReg`, whatever it leaves in the counter of draws, answers the
byte in its register, moves two bytes on, does not wait, and leaves the frame outside the register. -/
theorem completes_of_exec_eq_writeReg {i : Instr} {s : State} {x : Reg} {b : Byte} {d : Nat}
    (h : exec i s = writeReg x b { s with draws := d }) :
    ∃ t, exec i s = .next t ∧ t.getV x = b ∧ PcMoves 2 s t ∧ t.wait = false ∧
      FrameBut { regs := [x] } s t :=
  ⟨_, h, getV_setV_same { s with draws := d } x b, pcMoves_of_pc_eq_add rfl, rfl,
    frameBut_setV_advance_retire { s with draws := d } x b .ok⟩

/-- Settles O47: the shape `writeReg` with `DT` of the state before the tick. -/
theorem readDelayTimerBeforeTheTick : Obligations.ReadDelayTimerBeforeTheTick := by
  intro x s
  obtain ⟨t, hexec, hdt, hpc, -, hframe⟩ := completes_of_exec_eq_writeReg (i := .ldVxDT x) (s := s) rfl
  exact ⟨t, hexec, hdt, hpc, hframe⟩

theorem rnd_of_rndIn {s : State} {b : Byte} (h : s.rndIn = some b) : s.rnd = b := by
  rw [State.rnd, h, Option.getD_some]

/-- Settles O49: the shape `writeReg` with the input of the step masked, and a mask is idempotent. -/
theorem randomIsTheInputAndTheImmediate : Obligations.RandomIsTheInputAndTheImmediate := by
  intro x nn s
  obtain ⟨t, hexec, hv, hpc, -, hframe⟩ := completes_of_exec_eq_writeReg (i := .rndVxNN x nn) (s := s) rfl
  refine ⟨t, hexec, hv, fun b hb => ?supplied, ?masked, hpc, hframe⟩
  case supplied => rw [hv, rnd_of_rndIn hb]
  case masked => rw [hv, BitVec.and_assoc, BitVec.and_self]

/-! ### The key-wait -/

/-- Settles O44: the branch of the meaning that finds no key. -/
theorem keyWaitStallsWithoutAKey : Obligations.KeyWaitStallsWithoutAKey :=
  fun x _ hreleased => execLdVxK_of_none hreleased x

/-- A key code fits a register. -/
theorem keyByte_toNat (k : KeyCode) : (BitVec.ofNat 8 k.val).toNat = k.val :=
  Nat.mod_eq_of_lt (by omega)

/-- Settles O45: the branch of the meaning that finds the key is the shape `writeReg` with its code. -/
theorem keyWaitStoresTheLowestKey : Obligations.KeyWaitStoresTheLowestKey := by
  intro x k s hk hlow
  obtain ⟨t, hexec, hv, hpc, hwait, hframe⟩ :=
    completes_of_exec_eq_writeReg (i := .ldVxK x) (execLdVxK_of_lowest hk hlow x)
  exact ⟨t, hexec, by rw [hv, keyByte_toNat], hpc, hwait, hframe⟩

/-- A key pressed where none was is the lowest pressed key. -/
theorem lowest_setKey {s : State} (hreleased : ∀ j, s.pressed j = false) (k : KeyCode) :
    (s.setKey k true).pressed k = true ∧ ∀ j < k, (s.setKey k true).pressed j = false := by
  refine ⟨by rw [pressed_setKey, if_pos rfl], fun j hj => ?_⟩
  rw [pressed_setKey, if_neg (ne_of_lt hj), hreleased]

/-- Settles O46: the stall leaves the latch and `pc`, so it repeats itself (O44), and a press leaves
one key for the next attempt to find (O45). -/
theorem aPressEndsTheKeyWait : Obligations.APressEndsTheKeyWait := by
  intro x k s hreleased
  have hstalled : ∀ j, State.pressed { s with wait := true, report := .ok } j = false := hreleased
  obtain ⟨hk, hlow⟩ := lowest_setKey hstalled k
  obtain ⟨u, hpress, hv, hpc, hwait, -⟩ := keyWaitStoresTheLowestKey x k _ hk hlow
  exact ⟨_, u, keyWaitStallsWithoutAKey x s hreleased, keyWaitStallsWithoutAKey x _ hstalled, hpress, hv,
    hpc, hwait⟩

/-! ### The instructions that set a timer -/

/-- An instruction that does nothing but set the timers ticks them from where it set them, moves two
bytes on and leaves the whole frame. -/
theorem ticks_of_exec_eq_setTimers {i : Instr} {s : State} {d e : Byte}
    (h : exec i s = complete (State.advance { s with dt := d, st := e })) :
    ∃ t, exec i s = .next t ∧ DelayTicksFrom d t ∧ SoundTicksFrom e s t ∧ PcMoves 2 s t ∧
      FrameBut {} s t := by
  obtain ⟨hdelay, hsound⟩ := ticks_retire (s := { s with dt := d, st := e })
    (u := State.advance { s with dt := d, st := e }) rfl rfl rfl .ok
  exact ⟨_, h, hdelay, hsound, pcMoves_of_pc_eq_add rfl,
    frameBut_setPc_retire {} { s with dt := d, st := e } _ .ok⟩

/-- Settles O48: each sets its own timer and leaves the other where it stood. -/
theorem settingATimerIsFollowedByTheTick : Obligations.SettingATimerIsFollowedByTheTick :=
  fun _ _ => ⟨ticks_of_exec_eq_setTimers rfl, ticks_of_exec_eq_setTimers rfl⟩

end Sys2Proof.Machine
end

section
/-! SUPPORT. Proofs of the statements about reset and about the driver's operations of
46_host_operations.md: the load, the snapshot, the key latch, the pending flags, and the step with
its random byte. -/

namespace Sys2Proof.Machine

/-! ### `loadProgram` -/

theorem loadProgram_of_too_long {bytes : List Byte} (h : 3584 < bytes.length) (s : State) :
    s.loadProgram bytes = (s, .capacityError) := if_pos h

theorem loadProgram_of_fits {bytes : List Byte} (h : bytes.length ≤ 3584) (s : State) :
    s.loadProgram bytes = ({ s with mem := s.mem.writeBytes Config.progStart bytes }, .ok) :=
  if_neg (Nat.not_lt.2 h)

/-- Byte `k` of a program has the address `512 + k`, in the spelling of `Memory.writeBytes`. -/
theorem progStart_add (k : Nat) : BitVec.ofNat 12 (512 + k) = Config.progStart + BitVec.ofNat 12 k :=
  BitVec.ofNat_add 512 k

/-- An address outside a program that fits lies past its bytes, counted from 512 modulo 4096. -/
theorem le_sub_progStart_toNat {n : Nat} (hn : n ≤ 3584) {a : Addr}
    (h : a.toNat < 512 ∨ 512 + n ≤ a.toNat) : n ≤ (a - Config.progStart).toNat := by
  have hstart : Config.progStart.toNat = 512 := rfl
  rw [BitVec.toNat_sub, hstart]
  omega

/-- Settles O55: the two branches of the operation, the second being `Memory.writeBytes` at 512. -/
theorem loadProgramIsAllOrNothing : Obligations.LoadProgramIsAllOrNothing := by
  intro s bytes hm
  refine ⟨fun hlong => loadProgram_of_too_long hlong s, fun hfits => ?_⟩
  refine ⟨_, loadProgram_of_fits hfits s, rfl, Memory.wf_writeBytes hm _ bytes, fun k hk => ?inside,
    fun a ha => ?outside⟩
  case inside =>
    rw [progStart_add]
    exact Memory.read_writeBytes_same hm _ bytes (by omega) k hk
  case outside =>
    exact Memory.read_writeBytes_other s.mem _ a bytes (le_sub_progStart_toNat hfits ha)

/-! ### The display's snapshot -/

/-- The snapshot as one function of the index: the column is the remainder by 64, the row the
quotient. -/
theorem snapshot_eq_ofFn (s : State) :
    s.snapshot = List.ofFn fun k : Fin (32 * 64) => s.disp.get k.modNat k.divNat := by
  rw [List.ofFn_mul, State.snapshot, List.flatMap_def, ← List.ofFn_eq_map]
  congr! 3 with y
  rw [← List.ofFn_eq_map]
  congr! 3 with x
  · ext; change x.val = (y.val * 64 + x.val) % 64; omega
  · ext; change y.val = (y.val * 64 + x.val) / 64; omega

theorem length_snapshot (s : State) : s.snapshot.length = 2048 := by
  rw [snapshot_eq_ofFn, List.length_ofFn]

theorem getElem?_snapshot (s : State) (x : Col) (y : Row) :
    s.snapshot[64 * y.val + x.val]? = some (s.disp.get x y) := by
  rw [snapshot_eq_ofFn, ← Fin.coe_mkDivMod, List.getElem?_ofFn, dif_pos (Fin.isLt _), Fin.eta,
    Fin.modNat_mkDivMod, Fin.divNat_mkDivMod]

/-- Settles O58: the layout is `getElem?_snapshot`; the operation writes the one flag. -/
theorem consumeReturnsTheSnapshotAndClearsTheFlag :
    Obligations.ConsumeReturnsTheSnapshotAndClearsTheFlag :=
  fun s _ => ⟨{ s with drawPending := false }, s.snapshot, rfl, length_snapshot s, getElem?_snapshot s,
    rfl, rfl⟩

/-! ### Reset -/

theorem getV_reset (r : Reg) : State.reset.getV r = 0 := by
  simp [State.getV, State.reset]

theorem stack_reset (k : Fin 16) : State.reset.stack[k] = 0 := by
  simp [State.reset]

theorem pressed_reset (k : KeyCode) : State.reset.pressed k = false := by
  simp [State.pressed, State.reset]

/-- The memory after reset lists no cell, so it reads as the font table, and 0 past its end. -/
theorem read_reset (a : Addr) : State.reset.mem.read a = Config.font.getD a.toNat 0 := rfl

/-- Settles O50: `Config.font` is the table of R47. -/
theorem resetLeavesTheStatedState : Obligations.ResetLeavesTheStatedState :=
  ⟨getV_reset, rfl, rfl, rfl, stack_reset, rfl, rfl, read_reset, blankDisplay_get, pressed_reset,
    rfl, rfl, rfl⟩

/-- Settles O51: reset memory lists no cell, and `WAIT` is 0. -/
theorem resetMeetsTheInvariants : Obligations.ResetMeetsTheInvariants :=
  ⟨Memory.wf_nil, fun hwait => absurd hwait Bool.false_ne_true⟩

/-! ### The other operations -/

/-- Settles O54: `DriverOp.init` asks nothing of the block, and every other operation has its refusal. -/
theorem onlyInitialiseIsAcceptedAtFirst : Obligations.OnlyInitialiseIsAcceptedAtFirst := by
  refine ⟨fun b => ?accepted, fun op hop => ?refused⟩
  case accepted => cases b <;> rfl
  case refused =>
    cases op
    case init => exact absurd rfl hop
    all_goals rfl

/-- Pressing and releasing are the one operation `driveKey`. -/
theorem apply_ready_key (s : State) (m : Bool) (code : Nat) (b : Bool) :
    Block.apply (.ready s m) (if b then .pressKey code else .releaseKey code) = driveKey s m code b := by
  cases b <;> rfl

/-- Settles O56: the two branches of `driveKey`. -/
theorem keyOperationsWriteOneLatchBit : Obligations.KeyOperationsWriteOneLatchBit := by
  intro s m code b
  rw [apply_ready_key]
  exact ⟨fun hout => dif_neg (Nat.not_lt.2 hout), fun h =>
    ⟨s.setKey ⟨code, h⟩ b, dif_pos h, fun k => pressed_setKey s ⟨code, h⟩ k b, rfl⟩⟩

/-- Settles O57: the second call finds the bit that the first one cleared. -/
theorem soundPendingIsOneShot : Obligations.SoundPendingIsOneShot :=
  fun s _ => ⟨{ s with soundPending := false }, rfl, rfl, rfl⟩

/-! ### `step(rnd)` -/

/-- A step that answers a state with its input supplied: the driver gets the report, and the input is
taken away. -/
theorem stepWith_of_next {s t : State} {rnd : Byte} (h : step { s with rndIn := some rnd } = .next t) :
    s.stepWith rnd = .next ({ t with rndIn := none }, t.report) := by
  rw [State.stepWith, h]

/-- At the block, a step that reports `Ok` leaves the fatal mark as it was. -/
theorem apply_ready_step_of_ok {s t : State} {rnd : Byte} (h : step { s with rndIn := some rnd } = .next t)
    (hok : t.report = .ok) (m : Bool) :
    Block.apply (.ready s m) (.step rnd) = .next (.ready { t with rndIn := none } m, .result .ok) := by
  change driveStep s m rnd = _
  rw [driveStep, stepWith_of_next h, hok]
  simp [Condition.fatal]

/-- Settles O60: O49 on the state with the byte supplied; an instruction that answers a state reports
`Ok` (O14). -/
theorem theDriversByteIsTheRandomInput : Obligations.TheDriversByteIsTheRandomInput := by
  intro s m x nn rnd hfetch
  obtain ⟨t, hexec, -, hv, -⟩ := randomIsTheInputAndTheImmediate x nn { s with rndIn := some rnd }
  have hstep : step { s with rndIn := some rnd } = .next t :=
    (step_of_instr (s := { s with rndIn := some rnd }) hfetch).trans hexec
  obtain ⟨-, hok⟩ := waitIsSetExactlyByAStall _ _ t hexec
  exact ⟨_, apply_ready_step_of_ok hstep hok m, hv rnd rfl⟩

end Sys2Proof.Machine
end

section
/-! SUPPORT. Proofs of the statements about the conditions of 60_exceptions.md: where a step stops, and
what the driver gets from a step that stops. -/

namespace Sys2Proof.Machine

/-! ### Where an instruction stops -/

/-- The instruction `i` meets one of the two stack conditions in the state `s`, and `f` names it (R221,
R222). -/
def StackFault (i : Instr) (s : State) (f : Fault) : Prop :=
  (∃ nnn, i = .callNNN nnn ∧ s.sp.val = 16 ∧ f = .stackOverflow (encodeWord i) s.pc) ∨
    i = .ret ∧ s.sp.val = 0 ∧ f = .stackUnderflow (encodeWord i) s.pc

theorem exec_of_stackFault {i : Instr} {s : State} {f : Fault} (h : StackFault i s f) :
    exec i s = .fault f := by
  obtain ⟨nnn, rfl, hfull, rfl⟩ | ⟨rfl, hempty, rfl⟩ := h
  · exact execCallNNN_of_full hfull nnn
  · exact execRet_of_empty hempty

/-- Every instruction answers a next state or meets a stack condition: `RET` and `CALL` branch on `SP`
and stop in one branch, the key-wait answers a state in both of its branches, the others have one end. -/
theorem exec_next_or_stackFault (i : Instr) (s : State) :
    (∃ t, exec i s = .next t) ∨ ∃ f, StackFault i s f := by
  cases i
  case ret =>
    by_cases hsp : 0 < s.sp.val
    · exact .inl ⟨_, execRet_of_pos hsp⟩
    · exact .inr ⟨_, .inr ⟨rfl, Nat.eq_zero_of_not_pos hsp, rfl⟩⟩
  case callNNN nnn =>
    by_cases hsp : s.sp.val < 16
    · exact .inl ⟨_, execCallNNN_of_lt hsp nnn⟩
    · exact .inr ⟨_, .inl ⟨nnn, rfl, sp_eq_sixteen_of_not_lt hsp, rfl⟩⟩
  case ldVxK x =>
    cases hkey : s.lowestKey with
    | none => exact .inl ⟨_, execLdVxK_of_lowestKey_none hkey x⟩
    | some k => exact .inl ⟨_, execLdVxK_of_lowestKey_some hkey x⟩
  all_goals exact .inl ⟨_, rfl⟩

theorem exec_ne_refused (i : Instr) (s : State) (r : Refusal) : exec i s ≠ .refused r := by
  obtain ⟨t, hnext⟩ | ⟨f, hf⟩ := exec_next_or_stackFault i s
  · rw [hnext]; nofun
  · rw [exec_of_stackFault hf]; nofun

theorem exec_eq_fault_iff {i : Instr} {s : State} {f : Fault} : exec i s = .fault f ↔ StackFault i s f := by
  refine ⟨fun h => ?_, exec_of_stackFault⟩
  obtain ⟨t, hnext⟩ | ⟨g, hg⟩ := exec_next_or_stackFault i s
  · rw [hnext] at h; cases h
  · rw [exec_of_stackFault hg] at h
    injection h with h
    exact h ▸ hg

/-! ### Where a step stops -/

theorem step_ne_refused (s : State) (r : Refusal) : step s ≠ .refused r := by
  cases hd : s.fetchDecoded with
  | instr i => rw [step_of_instr hd]; exact exec_ne_refused i s r
  | unknown w => rw [step_of_unknown hd]; nofun

/-- The word in a fault is the fetched one, since the encoder gives it back. -/
theorem encodeWord_of_fetchDecoded {s : State} {i : Instr} (h : s.fetchDecoded = .instr i) :
    encodeWord i = s.fetch := by
  obtain ⟨-, hword⟩ := wellFormed_and_encodeWord_of_decodeWord h
  exact hword

/-- Settles O8: a step stops where the fetched instruction does, and an unknown word never stops it. -/
theorem stepStopsOnlyOnAStackFault : Obligations.StepStopsOnlyOnAStackFault := by
  refine fun s => ⟨step_ne_refused s, fun f => ?_⟩
  cases hd : s.fetchDecoded with
  | instr i =>
    rw [step_of_instr hd, exec_eq_fault_iff, StackFault, encodeWord_of_fetchDecoded hd]
    simp only [Decoded.instr.injEq]
  | unknown w => simp [step_of_unknown hd]

/-! ### What the driver gets from a step that stops -/

theorem fatal_condition (f : Fault) : f.condition.fatal = true := by
  cases f <;> rfl

/-- A step that answers a state reports `Ok` or an unknown word, and neither is fatal (R220). -/
theorem report_not_fatal_of_step {s t : State} (h : step s = .next t) : t.report.fatal = false := by
  obtain ⟨x, -, -, rfl⟩ | ⟨i, u, -, -, -, rfl⟩ | ⟨w, -, rfl⟩ := step_next_cases h
  all_goals rfl

/-- A step that stops does so whatever its random byte: the fetch, `SP` and `pc` decide alone. -/
theorem step_fault_of_other_rnd {s : State} {f : Fault} {r : Byte}
    (h : step { s with rndIn := some r } = .fault f) (r' : Byte) :
    step { s with rndIn := some r' } = .fault f := by
  obtain ⟨-, hstops⟩ := stepStopsOnlyOnAStackFault { s with rndIn := some r }
  obtain ⟨-, hstops'⟩ := stepStopsOnlyOnAStackFault { s with rndIn := some r' }
  exact (hstops' f).2 ((hstops f).1 h)

/-- At the block, a step that stops leaves the state as it was and sets the mark. -/
theorem apply_ready_step_of_fault {s : State} {f : Fault} {r : Byte}
    (h : step { s with rndIn := some r } = .fault f) (m : Bool) :
    Block.apply (.ready s m) (.step r) = .next (.ready s true, .result f.condition) := by
  have hwith : s.stepWith r = .next (s, f.condition) := by rw [State.stepWith, h]
  change driveStep s m r = _
  rw [driveStep, hwith]
  simp [fatal_condition]

/-- At the block, a step that answers a state hands its report over. -/
theorem apply_ready_step_of_next {s t : State} {r : Byte} (h : step { s with rndIn := some r } = .next t)
    (m : Bool) :
    Block.apply (.ready s m) (.step r) =
      .next (.ready { t with rndIn := none } (m || t.report.fatal), .result t.report) := by
  change driveStep s m r = _
  rw [driveStep, stepWith_of_next h]

/-- A fatal result comes from a step that stopped. -/
theorem step_fault_of_fatal_result {s : State} {m : Bool} {b : Block} {c : Condition} {r : Byte}
    (h : Block.apply (.ready s m) (.step r) = .next (b, .result c)) (hc : c.fatal = true) :
    ∃ f, step { s with rndIn := some r } = .fault f := by
  cases hstep : step { s with rndIn := some r } with
  | next t =>
    rw [apply_ready_step_of_next hstep] at h
    cases h
    rw [report_not_fatal_of_step hstep] at hc
    cases hc
  | fault f => exact ⟨f, rfl⟩
  | refused q => exact absurd hstep (step_ne_refused _ q)

/-- Settles O59: the step stopped, so the block has its old state, and from it the step stops again. -/
theorem aFatalResultRepeatsItself : Obligations.AFatalResultRepeatsItself := by
  intro s m b c r r' h hc
  obtain ⟨f, hf⟩ := step_fault_of_fatal_result h hc
  rw [apply_ready_step_of_fault hf] at h
  cases h
  exact ⟨rfl, apply_ready_step_of_fault (step_fault_of_other_rnd hf r') true⟩

end Sys2Proof.Machine
end
